-- ==== Sys2Proof/Word.lean ====
section
/-! DEFINITION. The widths of the data the block moves: 00_scope.md R6 and 20_memory.md R43. -/

namespace Sys2Proof

/-- A word of the sponge state: 64 bits, unsigned, bit 63 the most significant (R6, R11). -/
abbrev Word := BitVec 64

/-- A byte of a store, a length register or the host port: 8 bits, unsigned (R6, R48). -/
abbrev Byte := BitVec 8

/-- A local address of the host port: `ADDRW` = 10 bits, 0x000 to 0x3ff (R43). -/
abbrev HostAddr := BitVec 10

end Sys2Proof
end

