-- ==== Sys2Proof/Config.lean ====
section
/-! DEFINITION. The parameters of the block, 00_scope.md R5: the ones the spec fixes, and the record of the
ones an instance carries (`IV`, `SBOX5`, the latency). -/

namespace Sys2Proof

namespace Config

/-- `RATE`: bytes of the outer part of the sponge state (R5, R147). -/
def rate : Nat := 8

/-- `KEYLEN`: bytes of the key (R5). -/
def keyLen : Nat := 16

/-- `NONCELEN`: bytes of the nonce (R5). -/
def nonceLen : Nat := 16

/-- `TAGLEN`: bytes of the tag (R5). -/
def tagLen : Nat := 16

/-- `MAXLEN`: the largest legal length of the associated data or the plaintext, in bytes (R5). -/
def maxLen : Nat := 254

end Config

/-- `ROUNDSET`: the round counts the engine has (R5, R100). No other count can be written down, as no
command can ask for one (R73). -/
inductive Rounds where
  | r6
  | r8
  | r12
deriving DecidableEq, Repr

/-- A name on either side of an assignment of the S-box wiring (R104): a state word x0 to x4, or a
temporary t0, t1, ... -/
inductive SboxReg where
  | x (i : Fin 5)
  | t (n : Nat)
deriving DecidableEq, Repr

/-- One assignment of an S-box wiring. The layer uses "only XOR, AND and one's complement on whole words"
(R103), so these are all there are: `d = a ^ b`, `d = a & b`, `d = ~a & b`, `d = ~a`. -/
inductive SboxOp where
  | xor    (d a b : SboxReg)
  | and    (d a b : SboxReg)
  | andNot (d a b : SboxReg)
  | not    (d a : SboxReg)
deriving DecidableEq, Repr

/-- Which values of the latency `T_CMD` (R5, R240) an instance shows to its host. -/
inductive Timing where
  /-- `T_CMD` is zero host accesses long: a command is one event (the atomic view, R171). -/
  | atomic
  /-- `T_CMD` is positive: a command runs micro-operation by micro-operation, one step each, and host
  accesses may fall between them (the timed view, R172). -/
  | timed
deriving DecidableEq, Repr

/-- The parameters "the platform fixes before any command, once, outside the host port" (R234): constants
of an instance, which no command, host access or reset changes. -/
structure Params where
  /-- `IV`, the initial value of word 0 (R5, R134). -/
  iv : Word
  /-- `SBOX5`, the wiring of the substitution layer, executed in list order (R5, R103, R104). -/
  sbox5 : List SboxOp
  /-- `T_CMD`: zero or positive (R5, R240). -/
  timing : Timing
deriving DecidableEq, Repr

end Sys2Proof
end

