-- ==== Sys2Proof/Syntax.lean ====
section
/-! DEFINITION. The command set, one constructor per row of opcode_table.json (30_encoding.md R71), the one
format of its encodings (R70), and the host script (R76, R77). -/

namespace Sys2Proof

/-- The four host commands (R71). None has an operand in its byte: operands are the stores and registers
the host fills before it writes `CMD` (R70). -/
inductive Instr where
  | perm6
  | perm8
  | perm12
  | encrypt
deriving DecidableEq, Repr

/-- Format `C`, the fields of a command byte (R70): `op` in bits 7:4, `arg` in bits 3:0. -/
structure CommandFields where
  op  : BitVec 4
  arg : BitVec 4
deriving DecidableEq, Repr

/-- What follows `CMD` or `RUN` in a host script: a mnemonic or a byte (R76). -/
inductive CmdArg where
  | name (i : Instr)
  | byte (c : Byte)
deriving DecidableEq, Repr

/-- A line of a host script: the four lines of R76 and the pseudo-lines of R77. -/
inductive ScriptLine where
  | wr      (a : HostAddr) (v : Byte)
  | rd      (a : HostAddr)
  | cmd     (m : CmdArg)
  | poll
  | wrs     (a : HostAddr) (bs : List Byte)
  | wr64    (i : Fin 5) (w : Word)
  | rd64    (i : Fin 5)
  | rds     (a : HostAddr) (n : Nat)
  | ldkey   (bs : List Byte)
  | ldnonce (bs : List Byte)
  | ldad    (bs : List Byte)
  | ldpt    (bs : List Byte)
  | attach
  | run     (m : CmdArg)
deriving DecidableEq, Repr

end Sys2Proof
end

