-- ==== Sys2Proof/WellFormed.lean ====
section
/-! DEFINITION. Which command fields stand for a command (30_encoding.md R70 to R73), and which script lines
are lines of the notation (R76, R77). -/

namespace Sys2Proof

/-- The `op` field names an operation: 0x1 permute or 0x2 encrypt (R70). -/
def CommandFields.opLegal (f : CommandFields) : Bool := f.op == 1#4 || f.op == 2#4

/-- For `op` = 0x1 the `arg` field is a round count of {6, 8, 12} (R71, R73). -/
def CommandFields.roundsLegal (f : CommandFields) : Bool :=
  f.op != 1#4 || f.arg == 6#4 || f.arg == 8#4 || f.arg == 12#4

/-- For `op` = 0x2 the `arg` field is 0 (R70, R73). -/
def CommandFields.encryptArgLegal (f : CommandFields) : Bool := f.op != 2#4 || f.arg == 0#4

/-- The fields are those of one of the four commands; every other byte is illegal (R73). -/
def CommandFields.wellFormed (f : CommandFields) : Bool :=
  f.opLegal && f.roundsLegal && f.encryptArgLegal

/-- A script line is one R76 or R77 defines: a key and a nonce have 16 bytes, data at most 254, and a byte
string stays inside the 1024 addresses of the port (R43). -/
def ScriptLine.wellFormed : ScriptLine → Bool
  | .wr _ _ | .rd _ | .cmd _ | .poll | .wr64 _ _ | .rd64 _ | .attach | .run _ => true
  | .wrs a bs => a.toNat + bs.length ≤ 1024
  | .rds a n => a.toNat + n ≤ 1024
  | .ldkey bs => bs.length == Config.keyLen
  | .ldnonce bs => bs.length == Config.nonceLen
  | .ldad bs | .ldpt bs => bs.length ≤ Config.maxLen

end Sys2Proof
end

