-- ==== Sys2Proof/Decode.lean ====
section
/-! DEFINITION. The decoder of command bytes, total, and the encoder (30_encoding.md R70 to R75,
42_control.md R170). -/

namespace Sys2Proof

/-- Why a byte is no command (R73). All three are the one error `IllegalCommand` to the host (R203). -/
inductive IllegalByte where
  /-- the `op` field is neither 0x1 nor 0x2 -/
  | undefinedOp
  /-- a permute form whose `arg` is not 6, 8 or 12 -/
  | undefinedRounds
  /-- an encrypt form whose `arg` is not 0 -/
  | undefinedEncryptArg
deriving DecidableEq, Repr

/-- What the decoder says of a byte. -/
inductive Decoded where
  | command (i : Instr)
  | illegal (why : IllegalByte)
deriving DecidableEq, Repr

/-- The fields of a byte in format `C` (R70). -/
def fieldsOfByte (c : Byte) : CommandFields :=
  { op := c.extractLsb' 4 4, arg := c.extractLsb' 0 4 }

/-- The byte with the given fields (R70). -/
def byteOfFields (f : CommandFields) : Byte := f.op ++ f.arg

/-- The command that fields stand for (R71), by whole-field match; every other value is rejected by name
(R73). No state changes how a byte is decoded (R75). -/
def decodeFields (f : CommandFields) : Decoded :=
  if f.op = 1#4 then
    if f.arg = 6#4 then .command .perm6
    else if f.arg = 8#4 then .command .perm8
    else if f.arg = 12#4 then .command .perm12
    else .illegal .undefinedRounds
  else if f.op = 2#4 then
    if f.arg = 0#4 then .command .encrypt else .illegal .undefinedEncryptArg
  else .illegal .undefinedOp

/-- The decoder: a command byte to a command or a named rejection (R71, R73, R170). -/
def decode (c : Byte) : Decoded := decodeFields (fieldsOfByte c)

/-- The decoder on a table word: a command is one byte (R70), bit 0 its least significant bit. A row of
more than 8 bits does not exist. -/
def decodeTableWord (nbits w : Nat) : Option Instr :=
  if nbits ≤ 8 then
    match decode (BitVec.ofNat 8 (w % 2 ^ nbits)) with
    | .command i => some i
    | .illegal _ => none
  else none

/-- The `op` and `arg` of each command (R71). -/
def fieldsOf : Instr → CommandFields
  | .perm6   => { op := 0x1#4, arg := 0x6#4 }
  | .perm8   => { op := 0x1#4, arg := 0x8#4 }
  | .perm12  => { op := 0x1#4, arg := 0xc#4 }
  | .encrypt => { op := 0x2#4, arg := 0x0#4 }

/-- The encoder: the byte the host writes to `CMD` for a command (R71). -/
def encode (i : Instr) : Byte := byteOfFields (fieldsOf i)

/-- A command is well formed when its fields are those of a legal byte; it has no other operand (R70). -/
def Instr.wellFormed (i : Instr) : Bool := (fieldsOf i).wellFormed

/-- The round count of a permute command, `zext(arg)` (R72); an encrypt has none. -/
def Instr.roundCount (i : Instr) : Option Nat :=
  if (fieldsOf i).op = 1#4 then some (fieldsOf i).arg.toNat else none

end Sys2Proof
end

