-- ==== Sys2Proof/Machine/Defaults.lean ====
section
/-! DEFINITION. The default values of the two open parameters, `IV` and `SBOX5` (00_scope.md R5,
40_permutation.md R104). The spec marks both as supplied from general knowledge, not from its source: log
entries 1 and 2. No statement about every state rests on them, since a state carries its own. -/

namespace Sys2Proof.Machine

/-- The default `IV`, 0x80400c0600000000 (R5). PRESUMED by the spec itself (K2): log entry 1. -/
def defaultIv : Word := 0x80400c0600000000#64

/-- The default `SBOX5`: the 17 assignments of R104, in the order written. PRESUMED by the spec itself
(K1): log entry 2. -/
def defaultSbox : List SboxOp :=
  [ -- x0 = x0 ^ x4;   x4 = x4 ^ x3;   x2 = x2 ^ x1;
    .xor (.x 0) (.x 0) (.x 4), .xor (.x 4) (.x 4) (.x 3), .xor (.x 2) (.x 2) (.x 1),
    -- t0 = ~x0 & x1;  t1 = ~x1 & x2;  t2 = ~x2 & x3;  t3 = ~x3 & x4;  t4 = ~x4 & x0;
    .andNot (.t 0) (.x 0) (.x 1), .andNot (.t 1) (.x 1) (.x 2), .andNot (.t 2) (.x 2) (.x 3),
    .andNot (.t 3) (.x 3) (.x 4), .andNot (.t 4) (.x 4) (.x 0),
    -- x0 = x0 ^ t1;   x1 = x1 ^ t2;   x2 = x2 ^ t3;   x3 = x3 ^ t4;   x4 = x4 ^ t0;
    .xor (.x 0) (.x 0) (.t 1), .xor (.x 1) (.x 1) (.t 2), .xor (.x 2) (.x 2) (.t 3),
    .xor (.x 3) (.x 3) (.t 4), .xor (.x 4) (.x 4) (.t 0),
    -- x1 = x1 ^ x0;   x0 = x0 ^ x4;   x3 = x3 ^ x2;   x2 = ~x2;
    .xor (.x 1) (.x 1) (.x 0), .xor (.x 0) (.x 0) (.x 4), .xor (.x 3) (.x 3) (.x 2),
    .not (.x 2) (.x 2) ]

/-- The parameters of the instance that `State.reset` is: both defaults, and the atomic view of R171, "the
reference semantics". Log entries 1, 2 and 3. -/
def defaultParams : Params :=
  { iv := defaultIv, sbox5 := defaultSbox, timing := .atomic }

end Sys2Proof.Machine
end

