-- ==== Sys2Proof/Machine/State.lean ====
section
/-! DEFINITION. Everything the spec gives the machine: 10_state.md R10 item by item, the parameters of
00_scope.md R5, and the host's side of the port (the model's own fields). -/

namespace Sys2Proof.Machine

/-- `S[0..4]`, the sponge state: five 64-bit words (R11), named x0 to x4 as in R104, x_i = `S[i]`. -/
structure Sponge where
  x0 : Word
  x1 : Word
  x2 : Word
  x3 : Word
  x4 : Word
deriving DecidableEq, Repr

/-- The errors a command can end with, and none (R204). -/
inductive ErrCode where
  | none
  | missingBuffer
  | lengthOutOfRange
  | illegalCommand
deriving DecidableEq, Repr

/-- `STATUS` (R23), read-only for the host; its byte is `statusByte` of Machine/Flags.lean. -/
structure Status where
  busy : Bool
  done : Bool
  err  : ErrCode
deriving DecidableEq, Repr

/-- `MPC` (R24): the index into the micro-operation list of the command being executed, or IDLE. -/
inductive Mpc where
  | idle
  | entry (n : Nat)
deriving DecidableEq, Repr

/-- The micro-operations a command is made of (R172; their meanings R134 to R142). -/
inductive MicroOp where
  | loadInit
  | perm (r : Rounds)
  | keyX34
  | absAd (j : Nat)
  | dsep
  | absPt (j : Nat)
  | emit (j : Nat)
  | emitTail
  | keyX12
  | tagOut
  | discard
deriving DecidableEq, Repr

/-- The operand and result stores (R13 to R18). -/
inductive Store where
  | key
  | nonce
  | tag
  | ad
  | pt
  | ct
deriving DecidableEq, Repr

/-- What the world outside does in one step: a host access (20_memory.md R45, R46), a poll of `STATUS`
(30_encoding.md R76), no access while the block goes on, or the platform's reset (R230). The model's own
type for the outside: log entry 4. -/
inductive HostAction where
  | write (a : HostAddr) (v : Byte)
  | read (a : HostAddr)
  | poll
  | wait
  | reset
deriving DecidableEq, Repr

/-- The state of one instance and of its host port. -/
structure State where
  /-- `S[0..4]`, the sponge state (R11) -/
  S : Sponge
  /-- `ADLEN`, the number of valid bytes in `AD` (R19) -/
  adlen : Byte
  /-- `PTLEN`, the number of valid bytes in `PT` (R20) -/
  ptlen : Byte
  /-- `PRESENT[5:0]`: key, nonce, AD, plaintext, ciphertext, tag from bit 0 up (R21) -/
  present : BitVec 6
  /-- `STATUS` (R23) -/
  status : Status
  /-- `MPC` (R24) -/
  mpc : Mpc
  /-- `POS`, the position of the round inside a permutation micro-operation (R24); elsewhere it is meaningless,
  and its values there are the model's: log entries 5 and 17 -/
  pos : Nat
  /-- `L`, the micro-operation list the block built when it accepted the command (R172) -/
  microOps : List MicroOp
  /-- the stores `KEY`, `NONCE`, `TAG`, `AD`, `PT`, `CT`, by local address (R13 to R18, R44), in the canonical
  form of `Memory.wf` -/
  mem : List Host.Cell
  /-- the parameters of the instance (R5, R234) -/
  params : Params
  /-- what the outside does next, first action first (the model's own field: log entry 4) -/
  inputs : List HostAction
  /-- the bytes host reads have returned, first read first (the model's own field: log entry 4) -/
  reads : List Byte
deriving DecidableEq, Repr

/-- The faults a step can stop with: NONE. The block takes no traps (60_exceptions.md R200), every command
and every host access has a defined outcome (R47, R73, R204), and no access leaves the address space (R43,
R50). An error of a command is a next state with its report in `STATUS.ERR` (R206). -/
inductive Fault where
deriving DecidableEq, Repr

/-- The refusals a step can stop with. -/
inductive Refusal where
  /-- Raised by an arm of `exec` whose command has no meaning yet; no arm raises it. Safe: the model stops
  where the hardware goes on. -/
  | notModelled (mnemonic : String)
deriving DecidableEq, Repr

/-- The machine right after reset (10_state.md R29): every word, store and register zero, idle. `POS` is
unspecified there and never read while idle: 0 is a DESIGN CHOICE, log entry 5. The parameters are the
defaults (log entries 1 to 3); the host has done nothing yet. -/
def State.reset : State :=
  { S := { x0 := 0#64, x1 := 0#64, x2 := 0#64, x3 := 0#64, x4 := 0#64 }
    adlen := 0x00#8
    ptlen := 0x00#8
    present := 0b000000#6
    status := { busy := false, done := false, err := .none }
    mpc := .idle
    pos := 0
    microOps := []
    mem := []
    params := defaultParams
    inputs := []
    reads := [] }

end Sys2Proof.Machine
end

