-- ==== Sys2Proof/Machine/Flags.lean ====
section
/-! DEFINITION. `STATUS`, the only status bits there are: the block has no arithmetic flags or condition codes
and no operation produces one (10_state.md R23, R25; 60_exceptions.md R204). -/

namespace Sys2Proof.Machine

/-- The code of an error in `STATUS.ERR` (R204). -/
def ErrCode.code : ErrCode → BitVec 2
  | .none             => 0#2
  | .missingBuffer    => 1#2
  | .lengthOutOfRange => 2#2
  | .illegalCommand   => 3#2

/-- `STATUS` as the host reads it (R23): bit 0 `BUSY`, bit 1 `DONE`, bits 3:2 `ERR`, bits 7:4 zero. -/
def statusByte (st : Status) : Byte :=
  0#4 ++ st.err.code ++ BitVec.ofBool st.done ++ BitVec.ofBool st.busy

/-- Acceptance clears the previous report (R170). -/
def Status.accepted (st : Status) : Status := { st with done := false, err := .none }

/-- The report of an error: `ERR` and `DONE`, `BUSY` as it is (R206). -/
def Status.failed (st : Status) (e : ErrCode) : Status := { st with done := true, err := e }

/-- `STATUS` while a command runs; it reads 0x01 (R23). -/
def Status.running : Status := { busy := true, done := false, err := .none }

/-- `STATUS` after a command that succeeded: `BUSY` 0, `DONE` 1, `ERR` 0 (R172). -/
def Status.succeeded : Status := { busy := false, done := true, err := .none }

end Sys2Proof.Machine
end

