-- ==== Sys2Proof/Machine/Ops.lean ====
section
/-! DEFINITION. The named operations over registers and stores: byte order (20_memory.md R40 to R42), the
memory that holds the stores, store accesses (00_scope.md R7, 20_memory.md R50), and the end of a command,
with or without an error (42_control.md R172, 60_exceptions.md R206). -/

namespace Sys2Proof.Machine

/-! ### Byte order -/

/-- Byte k of a word, `w[63-8k : 56-8k]`: byte 0 is the most significant (R6). -/
def byteOf (w : Word) (k : Nat) : Byte := w.extractLsb' (56 - 8 * k) 8

/-- `BYTES8(w)`: the 8-byte string of a word, most significant byte first (R41). -/
def bytes8 (w : Word) : List Byte :=
  [byteOf w 0, byteOf w 1, byteOf w 2, byteOf w 3, byteOf w 4, byteOf w 5, byteOf w 6, byteOf w 7]

/-- The word whose byte k is `f k`, byte 0 the most significant (R40). -/
def wordOfBytes (f : Nat → Byte) : Word :=
  f 0 ++ f 1 ++ f 2 ++ f 3 ++ f 4 ++ f 5 ++ f 6 ++ f 7

/-- `BE64(b)`: the word of an 8-byte string, first byte most significant (R40). -/
def be64 (b : List Byte) : Word := wordOfBytes (fun k => b.getD k 0#8)

/-- The word with byte k replaced. -/
def setByteOf (w : Word) (k : Nat) (v : Byte) : Word := be64 ((bytes8 w).set k v)

/-! ### The state words -/

/-- `S[i]` (R7). -/
def Sponge.get (X : Sponge) : Fin 5 → Word
  | 0 => X.x0
  | 1 => X.x1
  | 2 => X.x2
  | 3 => X.x3
  | 4 => X.x4

/-- `S[i] <- w` (R7). -/
def Sponge.set (X : Sponge) (i : Fin 5) (w : Word) : Sponge :=
  match i with
  | 0 => { X with x0 := w }
  | 1 => { X with x1 := w }
  | 2 => { X with x2 := w }
  | 3 => { X with x3 := w }
  | 4 => { X with x4 := w }

/-- Five zero words (R29, R142). -/
def Sponge.zero : Sponge := { x0 := 0#64, x1 := 0#64, x2 := 0#64, x3 := 0#64, x4 := 0#64 }

/-! ### The memory -/

/-- What an unlisted address reads as: 0x00, the reset value of every store byte (R29). -/
def unlistedByte : Byte := 0x00#8

/-- The byte at an address. -/
def memGet : List Host.Cell → Nat → Byte
  | [], _ => unlistedByte
  | (b, w) :: m, a => if a = b then w else memGet m a

/-- Store a byte at an address, keeping the canonical form: addresses rising, no entry equal to what an
unlisted address reads as. -/
def memSet : List Host.Cell → Nat → Byte → List Host.Cell
  | [], a, v => if v = unlistedByte then [] else [(a, v)]
  | (b, w) :: m, a, v =>
    if a < b then
      if v = unlistedByte then (b, w) :: m else (a, v) :: (b, w) :: m
    else if a = b then
      if v = unlistedByte then m else (a, v) :: m
    else (b, w) :: memSet m a v

/-- The canonical form: every entry's byte differs from the unlisted byte, and every later address is
higher. -/
def Memory.wf : List Host.Cell → Bool
  | [] => true
  | (a, v) :: m => decide (v ≠ unlistedByte) && m.all (fun c => decide (a < c.1)) && Memory.wf m

/-! ### The stores -/

/-- The local address of a store's first byte (R44). -/
def Store.base : Store → Nat
  | .key   => 0x040
  | .nonce => 0x050
  | .tag   => 0x060
  | .ad    => 0x100
  | .pt    => 0x200
  | .ct    => 0x300

/-- The number of bytes of a store (R13 to R18). -/
def Store.size : Store → Nat
  | .key   => 16
  | .nonce => 16
  | .tag   => 16
  | .ad    => 254
  | .pt    => 254
  | .ct    => 254

/-- The stores the host may write: all but the results `TAG` and `CT` (R10, R44). -/
def Store.hostWritable : Store → Bool
  | .key   => true
  | .nonce => true
  | .tag   => false
  | .ad    => true
  | .pt    => true
  | .ct    => false

/-- The address lies in the store. -/
def Store.holds (X : Store) (a : Nat) : Bool := decide (X.base ≤ a) && decide (a < X.base + X.size)

/-- All six stores. -/
def Store.all : List Store := [.key, .nonce, .tag, .ad, .pt, .ct]

/-! ### Updates of the state, one per group of fields that change together -/

def State.setS (s : State) (X : Sponge) : State := { s with S := X }
def State.setMem (s : State) (m : List Host.Cell) : State := { s with mem := m }
def State.setStatus (s : State) (st : Status) : State := { s with status := st }
def State.setSequencer (s : State) (m : Mpc) (p : Nat) (l : List MicroOp) : State :=
  { s with mpc := m, pos := p, microOps := l }
def State.setInputs (s : State) (l : List HostAction) : State := { s with inputs := l }
def State.setReads (s : State) (l : List Byte) : State := { s with reads := l }

/-! ### Accesses to the stores (R7, R50) -/

/-- Byte k of a store, `X[k]`. -/
def readStore (X : Store) (k : Nat) (s : State) : Byte := memGet s.mem (X.base + k)

/-- `X[k] <- v`. -/
def writeStore (X : Store) (k : Nat) (v : Byte) (s : State) : State :=
  s.setMem (memSet s.mem (X.base + k) v)

/-- `MemRead(X, k, n)`: the n bytes from `X[k]` up, first byte first (R7). -/
def readBytes (X : Store) (k n : Nat) (s : State) : List Byte :=
  (List.range n).map (fun i => readStore X (k + i) s)

/-- `MemWrite(X, k, n, v)`: the string v to `X[k..k+n-1]`, first byte to `X[k]` (R7); n is its length. -/
def writeBytes (X : Store) (k : Nat) : List Byte → State → State
  | [], s => s
  | b :: bs, s => writeBytes X (k + 1) bs (writeStore X k b s)

/-! ### Acceptance, errors and the end of a command -/

/-- Acceptance of a command clears the previous report (R170). -/
def accept (s : State) : State := s.setStatus s.status.accepted

/-- `raise <Error>`, the block's only exception: "`STATUS.ERR <- code`; `STATUS.DONE <- 1`", `BUSY` and `MPC`
as they are, and "Nothing else changes" (R206). No state is saved, no mode changes and control goes nowhere;
there is no return, since there is nothing to restore (R207). -/
def raise (e : ErrCode) (s : State) : State := s.setStatus (s.status.failed e)

/-- The end of a command that succeeds: `MPC <- IDLE`, `BUSY <- 0`, `DONE <- 1`, `ERR <- 0` (R172, and R171
for the atomic view). The list of the ended command is dropped. `POS`, which R24 calls meaningless while idle
and 93_implementation_defined.md U15 lets be any value, keeps its last value: DESIGN CHOICE, log entry 17. -/
def finish (s : State) : State :=
  (s.setSequencer .idle s.pos []).setStatus Status.succeeded

end Sys2Proof.Machine
end

