-- ==== Sys2Proof/Machine/Engine.lean ====
section
/-! DEFINITION. The permutation engine, 40_permutation.md R100 to R108: a pure function of five words and a
round count. -/

namespace Sys2Proof.Machine

/-- `rotr64(w, n)` for 0 < n < 64 (00_scope.md R6). -/
def rotr64 (w : Word) (n : Nat) : Word := (w >>> n) ||| (w <<< (64 - n))

/-- The number a round count is (R100). -/
def roundCount : Rounds → Nat
  | .r6  => 6
  | .r8  => 8
  | .r12 => 12

/-- `RCBASE(r)`: the constant of the first round (R101). -/
def rcBase : Rounds → Nat
  | .r6  => 0x96
  | .r8  => 0xb4
  | .r12 => 0xf0

/-- `Rc(r, pos) = RCBASE(r) - (pos - 1) * 15`, over the natural numbers, pos from 1 (R101). -/
def roundConstant (r : Rounds) (pos : Nat) : Nat := rcBase r - (pos - 1) * 15

/-- Layer 1, `AddRc`: the constant, zero-extended, XORed into `S[2]` (R102, 90_conflicts.md C1). -/
def addRc (X : Sponge) (r : Rounds) (pos : Nat) : Sponge :=
  { X with x2 := X.x2 ^^^ BitVec.ofNat 64 (roundConstant r pos) }

/-- The words an S-box wiring works on: x0 to x4, and its temporaries. -/
structure SboxEnv where
  x : Sponge
  t : List Word
deriving DecidableEq, Repr

/-- Temporary n replaced in a list of temporaries, which is filled up with zeros to reach it. -/
def setTemp : List Word → Nat → Word → List Word
  | [], 0, w => [w]
  | _ :: l, 0, w => w :: l
  | [], n + 1, w => 0#64 :: setTemp [] n w
  | a :: l, n + 1, w => a :: setTemp l n w

/-- The value a name of a wiring has. A temporary that no assignment has reached yet is 0; the default
wiring reads none such (log entry 2). -/
def SboxEnv.get (e : SboxEnv) : SboxReg → Word
  | .x i => e.x.get i
  | .t n => e.t.getD n 0#64

/-- A name of a wiring gets a value. -/
def SboxEnv.set (e : SboxEnv) (d : SboxReg) (w : Word) : SboxEnv :=
  match d with
  | .x i => { e with x := e.x.set i w }
  | .t n => { e with t := setTemp e.t n w }

/-- One assignment of a wiring, on whole words (R103). -/
def runSboxOp (o : SboxOp) (e : SboxEnv) : SboxEnv :=
  match o with
  | .xor d a b    => e.set d (e.get a ^^^ e.get b)
  | .and d a b    => e.set d (e.get a &&& e.get b)
  | .andNot d a b => e.set d (~~~ (e.get a) &&& e.get b)
  | .not d a      => e.set d (~~~ (e.get a))

/-- The assignments of a wiring, in the order written. -/
def runSbox : List SboxOp → SboxEnv → SboxEnv
  | [], e => e
  | o :: l, e => runSbox l (runSboxOp o e)

/-- Layer 2, `SubLayer`: the wiring run on the five words, its output the five words at the end (R103,
R104). -/
def subLayer (sbox : List SboxOp) (X : Sponge) : Sponge := (runSbox sbox { x := X, t := [] }).x

/-- A row of layer 3: a word XORed with two right rotations of itself (R106). -/
def diffuse (w : Word) (a b : Nat) : Word := w ^^^ rotr64 w a ^^^ rotr64 w b

/-- Layer 3, `LinLayer`, with the rotation pairs of R106. -/
def linLayer (X : Sponge) : Sponge :=
  { x0 := diffuse X.x0 19 28
    x1 := diffuse X.x1 61 39
    x2 := diffuse X.x2 1 6
    x3 := diffuse X.x3 10 17
    x4 := diffuse X.x4 7 41 }

/-- One round: constant, substitution, diffusion, in this order (R107). -/
def round (sbox : List SboxOp) (r : Rounds) (pos : Nat) (X : Sponge) : Sponge :=
  linLayer (subLayer sbox (addRc X r pos))

/-- The first n rounds of a call, positions 1 to n (R108). -/
def runRounds (sbox : List SboxOp) (r : Rounds) : Nat → Sponge → Sponge
  | 0, X => X
  | n + 1, X => round sbox r (n + 1) (runRounds sbox r n X)

/-- `Permute(X, r)`: exactly r rounds (R108). -/
def permute (sbox : List SboxOp) (r : Rounds) (X : Sponge) : Sponge := runRounds sbox r (roundCount r) X

end Sys2Proof.Machine
end

