-- ==== Sys2Proof/Machine/Operands.lean ====
section
/-! DEFINITION. The operand forms of the commands: the key and nonce words (10_state.md R13, R14), the padded
block and the block counts (41_aead_orchestrator.md R131, R132), and the two tests before `ENCRYPT` starts
(R133). Operands are never in the command byte (30_encoding.md R70). -/

namespace Sys2Proof.Machine

/-- `k0`, the first half of the key (R13). -/
def k0 (s : State) : Word := be64 (readBytes .key 0 8 s)

/-- `k1`, the second half of the key (R13). -/
def k1 (s : State) : Word := be64 (readBytes .key 8 8 s)

/-- `n0`, the first half of the nonce (R14). -/
def n0 (s : State) : Word := be64 (readBytes .nonce 0 8 s)

/-- `n1`, the second half of the nonce (R14). -/
def n1 (s : State) : Word := be64 (readBytes .nonce 8 8 s)

/-- Byte m of the padded buffer of the first n bytes of a store: data, then 0x80, then zeros (R131). -/
def paddedByte (X : Store) (n m : Nat) (s : State) : Byte :=
  if m < n then readStore X m s else if m = n then 0x80#8 else 0x00#8

/-- `Blk(X, n, j)`: block j of the padded buffer, as a word (R131). -/
def blk (X : Store) (n j : Nat) (s : State) : Word :=
  wordOfBytes (fun k => paddedByte X n (8 * j + k) s)

/-- `s` or `t`: the number of blocks of n bytes and their padding (R132). -/
def blockCount (n : Nat) : Nat := (n + Config.rate) / Config.rate

/-- `l`: the unpadded length of the last plaintext block (R132). -/
def tailLength (n : Nat) : Nat := n % Config.rate

/-- `s`, from `ADLEN` (R132). -/
def adBlocks (s : State) : Nat := blockCount s.adlen.toNat

/-- `t`, from `PTLEN` (R132). -/
def ptBlocks (s : State) : Nat := blockCount s.ptlen.toNat

/-- The tests of `ENCRYPT`, in the order of 60_exceptions.md R205: all six buffers present (R201), then both
lengths at most 254 (R202). -/
def encryptError (s : State) : Option ErrCode :=
  if s.present ≠ 0b111111#6 then some .missingBuffer
  else if Config.maxLen < s.adlen.toNat ∨ Config.maxLen < s.ptlen.toNat then some .lengthOutOfRange
  else none

/-- The error a command is rejected with at its acceptance, if any: only `ENCRYPT` has one (R204). -/
def commandError (i : Instr) (s : State) : Option ErrCode :=
  match i with
  | .perm6   => none
  | .perm8   => none
  | .perm12  => none
  | .encrypt => encryptError s

end Sys2Proof.Machine
end

