-- ==== Sys2Proof/Machine/MicroOps.lean ====
section
/-! DEFINITION. The micro-operations of 41_aead_orchestrator.md R134 to R142, each a function of the state.
They are the parts of both views of a command: the atomic one (Machine/Encrypt.lean) and the timed one
(Machine/Sequencer.lean). -/

namespace Sys2Proof.Machine

/-- `M_LOADINIT` (R134): the five words are loaded, whatever they held. -/
def mLoadInit (s : State) : State :=
  s.setS { x0 := s.params.iv, x1 := k0 s, x2 := k1 s, x3 := n0 s, x4 := n1 s }

/-- `M_PERM(r)`, whole (R134, R135, R137, R140), with the instance's `SBOX5`. -/
def mPerm (r : Rounds) (s : State) : State := s.setS (permute s.params.sbox5 r s.S)

/-- `M_KEYX34` (R134). -/
def mKeyX34 (s : State) : State :=
  s.setS { s.S with x3 := s.S.x3 ^^^ k0 s, x4 := s.S.x4 ^^^ k1 s }

/-- `M_ABSAD(j)` (R135): only `S[0]` is XORed. -/
def mAbsAd (j : Nat) (s : State) : State :=
  s.setS { s.S with x0 := s.S.x0 ^^^ blk .ad s.adlen.toNat j s }

/-- `M_DSEP` (R136): bit 0 of `S[4]` is flipped. -/
def mDsep (s : State) : State := s.setS { s.S with x4 := s.S.x4 ^^^ 0x0000000000000001#64 }

/-- `M_ABSPT(j)` (R137, R138). -/
def mAbsPt (j : Nat) (s : State) : State :=
  s.setS { s.S with x0 := s.S.x0 ^^^ blk .pt s.ptlen.toNat j s }

/-- `M_EMIT(j)` (R137): the eight bytes of `S[0]` to `CT[8j..8j+7]`. -/
def mEmit (j : Nat) (s : State) : State := writeBytes .ct (8 * j) (bytes8 s.S.x0) s

/-- `M_EMITTAIL` (R138): the first l bytes of `S[0]` to `CT` from index 8(t-1) up. -/
def mEmitTail (s : State) : State :=
  writeBytes .ct (8 * (ptBlocks s - 1)) ((bytes8 s.S.x0).take (tailLength s.ptlen.toNat)) s

/-- `M_KEYX12` (R140). -/
def mKeyX12 (s : State) : State :=
  s.setS { s.S with x1 := s.S.x1 ^^^ k0 s, x2 := s.S.x2 ^^^ k1 s }

/-- The 16 tag bytes (R141, 90_conflicts.md C2): byte i is byte (i mod 8) of `S[3 + i div 8]`, masked with
`KEY[i]`. -/
def tagBytes (s : State) : List Byte :=
  List.zipWith (· ^^^ ·) (bytes8 s.S.x3 ++ bytes8 s.S.x4) (readBytes .key 0 Config.keyLen s)

/-- `M_TAGOUT` (R141): `S` is not modified. -/
def mTagOut (s : State) : State := writeBytes .tag 0 (tagBytes s) s

/-- `M_DISCARD` (R142). -/
def mDiscard (s : State) : State := s.setS Sponge.zero

/-- The effect of a micro-operation, whole. -/
def MicroOp.run (o : MicroOp) (s : State) : State :=
  match o with
  | .loadInit => mLoadInit s
  | .perm r   => mPerm r s
  | .keyX34   => mKeyX34 s
  | .absAd j  => mAbsAd j s
  | .dsep     => mDsep s
  | .absPt j  => mAbsPt j s
  | .emit j   => mEmit j s
  | .emitTail => mEmitTail s
  | .keyX12   => mKeyX12 s
  | .tagOut   => mTagOut s
  | .discard  => mDiscard s

end Sys2Proof.Machine
end

