-- ==== Sys2Proof/Machine/Encrypt.lean ====
section
/-! DEFINITION. `ENCRYPT`, 41_aead_orchestrator.md R130 to R143, as one event (the atomic view, 42_control.md
R171). -/

namespace Sys2Proof.Machine

/-- Phase 2, the first n blocks of associated data, each followed by a 6-round permutation (R135). -/
def absorbAd : Nat → State → State
  | 0, s => s
  | j + 1, s => mPerm .r6 (mAbsAd j (absorbAd j s))

/-- Phase 3, the first n full blocks of plaintext: absorb, emit, then permute (R137). -/
def encryptBlocks : Nat → State → State
  | 0, s => s
  | j + 1, s => mPerm .r6 (mEmit j (mAbsPt j (encryptBlocks j s)))

/-- Phase 1, initialization (R134). -/
def phaseInit (s : State) : State := mKeyX34 (mPerm .r12 (mLoadInit s))

/-- Phase 2, associated-data absorption, then the domain-separation bit (R135, R136). -/
def phaseAd (s : State) : State := mDsep (absorbAd (adBlocks s) s)

/-- Phase 3, plaintext absorption and ciphertext production (R137, R138). -/
def phasePt (s : State) : State :=
  mEmitTail (mAbsPt (ptBlocks s - 1) (encryptBlocks (ptBlocks s - 1) s))

/-- Phase 4, finalization, tag derivation and discard (R140 to R142). -/
def phaseFinal (s : State) : State := mDiscard (mTagOut (mPerm .r12 (mKeyX12 s)))

/-- The four phases in their fixed order, each exactly once (R130, R143). -/
def encryptPhases (s : State) : State := phaseFinal (phasePt (phaseAd (phaseInit s)))

/-- `ENCRYPT` (R143): validation first, and on error nothing but the report (R133, R206); else the four
phases and the end of the command. -/
def execEncrypt (s : State) : Host.Outcome State Fault Refusal :=
  match encryptError s with
  | some e => .next (raise e s)
  | none => .next (finish (encryptPhases s))

end Sys2Proof.Machine
end

