-- ==== Sys2Proof/Machine/Permute.lean ====
section
/-! DEFINITION. The permute commands, 40_permutation.md R109 to R111, as one event each (the atomic view,
42_control.md R171). They raise nothing and examine neither `PRESENT` nor the lengths. -/

namespace Sys2Proof.Machine

/-- `S[0..4] <- Permute(S[0..4], r)`; `ERR <- 0`; `DONE <- 1` (R109 to R111). -/
def permuteInPlace (r : Rounds) (s : State) : State := finish (mPerm r s)

/-- `PERM6` (R109). -/
def execPerm6 (s : State) : Host.Outcome State Fault Refusal := .next (permuteInPlace .r6 s)

/-- `PERM8` (R110). -/
def execPerm8 (s : State) : Host.Outcome State Fault Refusal := .next (permuteInPlace .r8 s)

/-- `PERM12` (R111). -/
def execPerm12 (s : State) : Host.Outcome State Fault Refusal := .next (permuteInPlace .r12 s)

end Sys2Proof.Machine
end

