-- ==== Sys2Proof/Machine/Dispatch.lean ====
section
/-! DEFINITION. One arm per command: what a command does once the block has accepted it, in one event
(42_control.md R170, R171). -/

namespace Sys2Proof.Machine

def exec (i : Instr) (s : State) : Host.Outcome State Fault Refusal :=
  match i with
  | .perm6 => Sys2Proof.Machine.execPerm6 s
  | .perm8 => Sys2Proof.Machine.execPerm8 s
  | .perm12 => Sys2Proof.Machine.execPerm12 s
  | .encrypt => Sys2Proof.Machine.execEncrypt s

end Sys2Proof.Machine
end

