-- ==== Sys2Proof/Machine/Sequencer.lean ====
section
/-! DEFINITION. The timed view, 42_control.md R172: the micro-operation list of a command, and the sequencer
that runs it, one micro-operation or one round of a permutation at each turn of the block. -/

namespace Sys2Proof.Machine

/-- The part of `L(ENCRYPT)` for n blocks of associated data (R172). -/
def adOps (n : Nat) : List MicroOp := (List.range n).flatMap (fun j => [.absAd j, .perm .r6])

/-- The part of `L(ENCRYPT)` for n full blocks of plaintext (R172). -/
def ptOps (n : Nat) : List MicroOp := (List.range n).flatMap (fun j => [.absPt j, .emit j, .perm .r6])

/-- `L(ENCRYPT)` for `s` blocks of associated data and `t` of plaintext (R172). -/
def encryptOps (s t : Nat) : List MicroOp :=
  [.loadInit, .perm .r12, .keyX34] ++ adOps s ++ [.dsep] ++ ptOps (t - 1)
    ++ [.absPt (t - 1), .emitTail, .keyX12, .perm .r12, .tagOut, .discard]

/-- `L`, the micro-operation list of a command (R172). -/
def opsOf (i : Instr) (s : State) : List MicroOp :=
  match i with
  | .perm6   => [.perm .r6]
  | .perm8   => [.perm .r8]
  | .perm12  => [.perm .r12]
  | .encrypt => encryptOps (adBlocks s) (ptBlocks s)

/-- `POS` as the sequencer comes to a micro-operation: 1 at a permutation (R172, log entry 6); at any other
micro-operation, where R24 calls it meaningless, as it was: DESIGN CHOICE, log entry 17. -/
def posAt (l : List MicroOp) (n pos : Nat) : Nat :=
  match l[n]? with
  | some (.perm _) => 1
  | _ => pos

/-- `MPC <- n` (00_scope.md R7). -/
def goTo (n : Nat) (s : State) : State :=
  s.setSequencer (.entry n) (posAt s.microOps n s.pos) s.microOps

/-- The start of a command the block does not reject: it builds `L`, sets `MPC <- 0` and `BUSY <- 1` (R172). -/
def start (i : Instr) (s : State) : State :=
  goTo 0 ((s.setSequencer s.mpc s.pos (opsOf i s)).setStatus Status.running)

/-- After entry n: `MPC <- MPC + 1`, or the end of the command when that is the length of `L` (R172). -/
def leave (n : Nat) (s : State) : State :=
  if n + 1 < s.microOps.length then goTo (n + 1) s else finish s

/-- One round of `M_PERM(r)`: `S <- Round(S, r, POS)`; `POS <- POS + 1` (R172). -/
def permRound (r : Rounds) (s : State) : State :=
  (s.setS (round s.params.sbox5 r s.pos s.S)).setSequencer s.mpc (s.pos + 1) s.microOps

/-- One turn of the block (R172): while busy, one round of a permutation or one whole micro-operation; the
permutation is left when `POS > r`. Idle, nothing: "the block is idle and does nothing until the host writes
`CMD`" (R230). -/
def blockTurn (s : State) : State :=
  match s.mpc with
  | .idle => s
  | .entry n =>
    match s.microOps[n]? with
    | none => finish s
    | some (.perm r) =>
      if roundCount r < s.pos + 1 then leave n (permRound r s) else permRound r s
    | some o => leave n (o.run s)

/-- The turns a micro-operation takes: r for `M_PERM(r)`, one for any other (R172). -/
def MicroOp.turns : MicroOp → Nat
  | .perm r => roundCount r
  | _ => 1

/-- The rounds a micro-operation executes (R145). -/
def MicroOp.rounds : MicroOp → Nat
  | .perm r => roundCount r
  | _ => 0

/-- The turns a list takes. -/
def turnsOf (l : List MicroOp) : Nat := (l.map MicroOp.turns).sum

/-- The rounds a list executes (R145, R241). -/
def roundsOf (l : List MicroOp) : Nat := (l.map MicroOp.rounds).sum

/-- The permutation calls in a list (R145). -/
def permCalls (l : List MicroOp) : Nat := (l.filter (fun o => decide (o.rounds ≠ 0))).length

end Sys2Proof.Machine
end

