-- ==== Sys2Proof/Machine/HostPort.lean ====
section
/-! DEFINITION. The host port: the address map (20_memory.md R44), the two access primitives (R45, R46),
command submission (42_control.md R170), reset (70_reset_and_hazards.md R230), and what one action of the
outside does. -/

namespace Sys2Proof.Machine

/-- What a local address names (R44). -/
inductive Item where
  /-- byte k of `S[i]` -/
  | sponge (i : Fin 5) (k : Fin 8)
  | cmd
  | status
  | adlen
  | ptlen
  | present
  /-- byte k of a store -/
  | store (X : Store) (k : Nat)
  | reserved
deriving DecidableEq, Repr

/-- The address map below 0x040 (R44). -/
def lowItem (a : Nat) : Item :=
  if h : a < 0x028 then .sponge ⟨a / 8, by omega⟩ ⟨a % 8, by omega⟩
  else if a = 0x030 then .cmd
  else if a = 0x031 then .status
  else if a = 0x032 then .adlen
  else if a = 0x033 then .ptlen
  else if a = 0x034 then .present
  else .reserved

/-- The address map (R44): a store where one holds the address, else the registers and `S`. -/
def itemAt (a : HostAddr) : Item :=
  match Store.all.find? (fun X => X.holds a.toNat) with
  | some X => .store X (a.toNat - X.base)
  | none => lowItem a.toNat

/-- The byte an idle host reads at an item (R45): `CMD` and reserved addresses read 0x00, `PRESENT` reads with
bits 7:6 zero. -/
def readItem (it : Item) (s : State) : Byte :=
  match it with
  | .sponge i k => byteOf (s.S.get i) k
  | .cmd        => 0x00#8
  | .status     => statusByte s.status
  | .adlen      => s.adlen
  | .ptlen      => s.ptlen
  | .present    => 0#2 ++ s.present
  | .store X k  => readStore X k s
  | .reserved   => 0x00#8

/-- `HostRead(a)` (R45): `STATUS` at any time; any other item reads 0x00 while busy (R55). -/
def hostRead (a : HostAddr) (s : State) : Byte :=
  if itemAt a = .status then statusByte s.status
  else if s.status.busy then 0x00#8
  else readItem (itemAt a) s

/-- A host write that is no command submission (R46): a writable item stores the byte, `PRESENT` its bits 5:0,
and any other item ignores it (R47). -/
def writeItem (it : Item) (v : Byte) (s : State) : State :=
  match it with
  | .sponge i k => s.setS (s.S.set i (setByteOf (s.S.get i) k v))
  | .adlen      => { s with adlen := v }
  | .ptlen      => { s with ptlen := v }
  | .present    => { s with present := v.extractLsb' 0 6 }
  | .store X k  => if X.hostWritable then writeStore X k v s else s
  | .cmd        => s
  | .status     => s
  | .reserved   => s

/-- The timed view of an accepted command (R172): rejected at once, without ever setting `BUSY`, or started. -/
def acceptTimed (i : Instr) (s : State) : State :=
  match commandError i s with
  | some e => raise e s
  | none => start i s

/-- Submission of a byte to an idle block (R170): acceptance clears the previous report; a byte that is no
command raises `IllegalCommand` (R73, R203); a command is executed, in one event or over the turns that
follow, as the instance's latency has it (R171, R172). -/
def submit (c : Byte) (s : State) : Host.Outcome State Fault Refusal :=
  match decode c with
  | .illegal _ => .next (raise .illegalCommand (accept s))
  | .command i =>
    match s.params.timing with
    | .atomic => exec i (accept s)
    | .timed => .next (acceptTimed i (accept s))

/-- `HostWrite(a, v)` (R46): nothing while busy (R55), a submission at `CMD`, else a plain write. -/
def hostWrite (a : HostAddr) (v : Byte) (s : State) : Host.Outcome State Fault Refusal :=
  if s.status.busy then .next s
  else if itemAt a = .cmd then submit v s
  else .next (writeItem (itemAt a) v s)

/-- A host read as an event: the block does not change (R45), the host gets the byte. -/
def recordRead (a : HostAddr) (s : State) : State := s.setReads (s.reads ++ [hostRead a s])

/-- The local address of `CMD` (R22). -/
def cmdAddr : HostAddr := 0x030#10

/-- The local address of `STATUS` (R23). -/
def statusAddr : HostAddr := 0x031#10

/-- `RESET` (R230): every item of state takes its value of R29; a running command is abandoned without
report. The parameters are no state (R234), and the outside goes on. -/
def resetEvent (s : State) : State :=
  { State.reset with params := s.params, inputs := s.inputs, reads := s.reads }

/-- `POLL` (R76): a read of `STATUS`. While it reads busy the block takes a turn and the poll stays first in
line (log entry 7); once it does not, the poll is over. -/
def pollOnce (s : State) : State :=
  if s.status.busy then blockTurn (recordRead statusAddr (s.setInputs (.poll :: s.inputs)))
  else recordRead statusAddr s

/-- What one action of the outside does to the block, the action already taken from the line. -/
def perform (h : HostAction) (s : State) : Host.Outcome State Fault Refusal :=
  match h with
  | .write a v => hostWrite a v s
  | .read a    => .next (recordRead a s)
  | .poll      => .next (pollOnce s)
  | .wait      => .next (blockTurn s)
  | .reset     => .next (resetEvent s)

/-- A block that is idle and whose host writes the given byte to `CMD` next: a running command, if any, is
gone. -/
def placeCommand (c : Byte) (s : State) : State :=
  ((s.setSequencer .idle s.pos []).setStatus { s.status with busy := false }).setInputs
    (.write cmdAddr c :: s.inputs)

end Sys2Proof.Machine
end

