-- ==== Sys2Proof/Machine/Step.lean ====
section
/-! DEFINITION. One step of the machine. The block fetches no instructions (20_memory.md R54): what runs next
is what its host does next. -/

namespace Sys2Proof.Machine

/-- One step: the next action of the outside, in the order issued (R52); with none in line, the block takes a
turn (R172, R175). -/
def step (s : State) : Host.Outcome State Fault Refusal :=
  match s.inputs with
  | [] => .next (blockTurn s)
  | h :: rest => perform h (s.setInputs rest)

/-- The state whose next step submits the command byte w: the host's next action is the write of it to `CMD`,
and the block is idle, so that the write is not ignored. Log entry 8. -/
def State.withFetchWord (s : State) (nbits w : Nat) : State :=
  placeCommand (BitVec.ofNat 8 (w % 2 ^ nbits)) s

end Sys2Proof.Machine
end

