-- ==== Sys2Proof/Machine/Reference.lean ====
section
/-! DEFINITION. `Encrypt(IV, key, nonce, ad, pt) = (ct, tag)`, 41_aead_orchestrator.md R144: the command as a
pure function of byte strings, written from the source's words on padded buffers (R131) and with no state of
the block, for statements to compare the machine with. -/

namespace Sys2Proof.Machine.Reference

/-- The padded buffer: the bytes, one 0x80, zeros to a multiple of 8 (R131). -/
def padded (bs : List Byte) : List Byte :=
  bs ++ 0x80#8 :: List.replicate (7 - bs.length % 8) 0x00#8

/-- A buffer as words, eight bytes each, first byte most significant (R40). -/
def wordsOf : List Byte → List Word
  | a :: b :: c :: d :: e :: f :: g :: h :: rest => be64 [a, b, c, d, e, f, g, h] :: wordsOf rest
  | _ => []

/-- Absorption of associated data: each block XORed into word 0, then 6 rounds (R135). -/
def absorb (sbox : List SboxOp) : List Word → Sponge → Sponge
  | [], X => X
  | w :: ws, X => absorb sbox ws (permute sbox .r6 { X with x0 := X.x0 ^^^ w })

/-- Absorption of plaintext: each block XORed into word 0, which is the ciphertext block; 6 rounds after every
block but the last (R137, R138). -/
def crypt (sbox : List SboxOp) : List Word → Sponge → List Byte × Sponge
  | [], X => ([], X)
  | [w], X => (bytes8 (X.x0 ^^^ w), { X with x0 := X.x0 ^^^ w })
  | w :: ws, X =>
    let rest := crypt sbox ws (permute sbox .r6 { X with x0 := X.x0 ^^^ w })
    (bytes8 (X.x0 ^^^ w) ++ rest.1, rest.2)

/-- The state after initialization (R134). -/
def initial (sbox : List SboxOp) (iv : Word) (key nonce : List Byte) : Sponge :=
  let X := permute sbox .r12
    { x0 := iv, x1 := be64 (key.take 8), x2 := be64 (key.drop 8),
      x3 := be64 (nonce.take 8), x4 := be64 (nonce.drop 8) }
  { X with x3 := X.x3 ^^^ be64 (key.take 8), x4 := X.x4 ^^^ be64 (key.drop 8) }

/-- The state after the associated data and the domain-separation bit (R135, R136). -/
def afterAd (sbox : List SboxOp) (ad : List Byte) (X : Sponge) : Sponge :=
  let Y := absorb sbox (wordsOf (padded ad)) X
  { Y with x4 := Y.x4 ^^^ 1#64 }

/-- The tag: 12 rounds after the key is XORed into words 1 and 2, then words 3 and 4 masked with the key
(R140, R141). -/
def tagOf (sbox : List SboxOp) (key : List Byte) (X : Sponge) : List Byte :=
  let Y := permute sbox .r12
    { X with x1 := X.x1 ^^^ be64 (key.take 8), x2 := X.x2 ^^^ be64 (key.drop 8) }
  bytes8 (Y.x3 ^^^ be64 (key.take 8)) ++ bytes8 (Y.x4 ^^^ be64 (key.drop 8))

/-- `Encrypt` (R144): the ciphertext, as long as the plaintext, and the 16-byte tag. -/
def encrypt (sbox : List SboxOp) (iv : Word) (key nonce ad pt : List Byte) : List Byte × List Byte :=
  let out := crypt sbox (wordsOf (padded pt)) (afterAd sbox ad (initial sbox iv key nonce))
  (out.1.take pt.length, tagOf sbox key out.2)

end Sys2Proof.Machine.Reference
end

