-- ==== Sys2Proof/Machine/Script.lean ====
section
/-! DEFINITION. The host script, 30_encoding.md R76 and R77: what each line makes the host do, and
what value a line that reads gives. "A script is not
stored in the block and the block does not fetch it: the script is what the host does". -/

namespace Sys2Proof.Machine

/-- The byte a `CMD` or `RUN` line submits (R76). -/
def argByte : CmdArg → Byte
  | .name i => encode i
  | .byte c => c

/-- A byte string written to ascending addresses (R77, `WRS`). -/
def writeString (a : HostAddr) : List Byte → List HostAction
  | [] => []
  | b :: bs => .write a b :: writeString (a + 1#10) bs

/-- n bytes read in address order (R77, `RDS`). -/
def readString (a : HostAddr) : Nat → List HostAction
  | 0 => []
  | n + 1 => .read a :: readString (a + 1#10) n

/-- The local address of the first byte of a store. -/
def Store.addr (X : Store) : HostAddr := BitVec.ofNat 10 X.base

/-- The local address of byte 0 of `S[i]`, `0x000 + 8*i` (20_memory.md R42). -/
def wordAddr (i : Fin 5) : HostAddr := BitVec.ofNat 10 (8 * i.val)

/-- The host actions a script line stands for (R76, R77). -/
def expandLine : ScriptLine → List HostAction
  | .wr a v => [.write a v]
  | .rd a => [.read a]
  | .cmd m => [.write cmdAddr (argByte m)]
  | .poll => [.poll]
  | .wrs a bs => writeString a bs
  | .wr64 i w => writeString (wordAddr i) (bytes8 w)
  | .rd64 i => readString (wordAddr i) 8
  | .rds a n => readString a n
  | .ldkey bs => writeString Store.key.addr bs
  | .ldnonce bs => writeString Store.nonce.addr bs
  | .ldad bs => writeString Store.ad.addr bs ++ [.write 0x032#10 (BitVec.ofNat 8 bs.length)]
  | .ldpt bs => writeString Store.pt.addr bs ++ [.write 0x033#10 (BitVec.ofNat 8 bs.length)]
  | .attach => [.write 0x034#10 0x3f#8]
  | .run m => [.write cmdAddr (argByte m), .poll]

/-- A script is the actions of its lines, in order (R76). -/
def expandScript (l : List ScriptLine) : List HostAction := l.flatMap expandLine

/-- The host is about to do what a script says, after what it is already about to do. -/
def withScript (l : List ScriptLine) (s : State) : State :=
  s.setInputs (s.inputs ++ expandScript l)

/-! ### What a line that reads gives -/

/-- A value a line gives a name to: a byte (`RD a -> x`, the result of `POLL`), a byte string (`RDS a, n -> x`)
or a word (`RD64 i -> w`). -/
inductive ScriptValue where
  | byte (v : Byte)
  | bytes (bs : List Byte)
  | word (w : Word)
deriving DecidableEq, Repr

/-- The result of a poll, of the bytes it read: the last one, once it has bit 0 (`BUSY`) = 0 (R76). -/
def pollResult (r : List Byte) : Option Byte := r.getLast?.filter (fun v => !v.getLsbD 0)

/-- The value of a line, of the bytes its reads returned, first read first: none before the line is over, and
none of a line that reads nothing. `RD64` gives `BE64(r0 ... r7)` (R77). -/
def lineValue (l : ScriptLine) (r : List Byte) : Option ScriptValue :=
  match l with
  | .rd _           => r.head?.map .byte
  | .rds _ n        => if r.length = n then some (.bytes r) else none
  | .rd64 _         => if r.length = 8 then some (.word (be64 r)) else none
  | .poll | .run _  => (pollResult r).map .byte
  | .wr _ _ | .cmd _ | .wrs _ _ | .wr64 _ _ | .ldkey _ | .ldnonce _ | .ldad _ | .ldpt _ | .attach => none

/-- The bytes the host has read from state s on to state t: what `State.reads` has gained. -/
def bytesReadSince (s t : State) : List Byte := t.reads.drop s.reads.length

/-- The value of a line the host began in state s and has ended in state t. -/
def scriptValue (l : ScriptLine) (s t : State) : Option ScriptValue := lineValue l (bytesReadSince s t)

end Sys2Proof.Machine
end

