-- ==== Sys2Proof/Safety.lean ====
section
/-! DEFINITION. What the statements speak of: the invariant of the machine, runs of steps and of turns, and the
parts of a state the frames compare. -/

namespace Sys2Proof.Machine

/-- Every listed byte of the memory is a byte of a store: no reserved address holds anything (R44, R47). -/
def MemInStores (m : List Host.Cell) : Prop := ∀ c ∈ m, ∃ X : Store, X.holds c.1 = true

/-- The invariant of the machine. -/
structure MachineInv (s : State) : Prop where
  /-- the memory is in its canonical form -/
  mem_wf : Memory.wf s.mem = true
  /-- and lists bytes of stores only (R44) -/
  mem_stores : MemInStores s.mem
  /-- "`STATUS.BUSY` = 1 exactly when `MPC ≠ IDLE`" (R24) -/
  busy_iff : s.status.busy = true ↔ s.mpc ≠ .idle
  /-- "`BUSY` and `DONE` are never both 1" (R23) -/
  busy_not_done : ¬ (s.status.busy = true ∧ s.status.done = true)
  /-- an error code is reported with `DONE` only (R23) -/
  err_done : s.status.done = false → s.status.err = .none
  /-- in the atomic view `BUSY` is never 1 (R171) -/
  atomic_idle : s.params.timing = .atomic → s.status.busy = false
  /-- an idle block has no list (R172) -/
  idle_list : s.mpc = .idle → s.microOps = []
  /-- a busy block runs the list of a command that passed its tests, `MPC` inside it (R172) -/
  running : ∀ n, s.mpc = .entry n →
    n < s.microOps.length ∧ ∃ i : Instr, commandError i s = none ∧ s.microOps = opsOf i s
  /-- `POS` counts from 1 to the round count inside a permutation (R24) -/
  pos_range : ∀ n r, s.mpc = .entry n → s.microOps[n]? = some (.perm r) →
    1 ≤ s.pos ∧ s.pos ≤ roundCount r

/-- n turns of the block with no host access between them. -/
def turns : Nat → State → State
  | 0, s => s
  | n + 1, s => turns n (blockTurn s)

/-- The block's part of a state, without `POS`, which is unspecified outside a permutation (R24, R29; log
entries 5 and 17), and
without the host's side of the port. -/
def State.block (s : State) : State := { s with pos := 0, inputs := [], reads := [] }

/-- The operands the host writes and no command does (R143): lengths, `PRESENT`, and the input stores byte by
byte. -/
def SameOperands (s t : State) : Prop :=
  t.adlen = s.adlen ∧ t.ptlen = s.ptlen ∧ t.present = s.present ∧
  (∀ k, k < 16 → readStore .key k t = readStore .key k s) ∧
  (∀ k, k < 16 → readStore .nonce k t = readStore .nonce k s) ∧
  (∀ k, k < 254 → readStore .ad k t = readStore .ad k s) ∧
  (∀ k, k < 254 → readStore .pt k t = readStore .pt k s)

/-- The operands `ENCRYPT` reads (R143), and the parameters it depends on, are the same. -/
def SameEncryptInputs (s t : State) : Prop :=
  t.params.iv = s.params.iv ∧ t.params.sbox5 = s.params.sbox5 ∧
  t.adlen = s.adlen ∧ t.ptlen = s.ptlen ∧ t.present = s.present ∧
  (∀ k, k < 16 → readStore .key k t = readStore .key k s) ∧
  (∀ k, k < 16 → readStore .nonce k t = readStore .nonce k s) ∧
  (∀ k, k < s.adlen.toNat → readStore .ad k t = readStore .ad k s) ∧
  (∀ k, k < s.ptlen.toNat → readStore .pt k t = readStore .pt k s)

/-- The host's side of the port and the parameters are the same. -/
def SameOutside (s t : State) : Prop :=
  t.params = s.params ∧ t.inputs = s.inputs ∧ t.reads = s.reads

/-- An address of a byte `ENCRYPT` stores to in state s: `CT[0..PTLEN-1]` or `TAG[0..15]` (R143), at the
addresses `writeBytes` gives them. -/
def encryptStores (s : State) (a : Nat) : Prop :=
  (Store.ct.base ≤ a ∧ a < Store.ct.base + s.ptlen.toNat) ∨
  (Store.tag.base ≤ a ∧ a < Store.tag.base + Config.tagLen)

/-- Column b of five words, `X[0][b]` the most significant of the five bits (R105). -/
def column (X : Sponge) (b : Nat) : BitVec 5 :=
  BitVec.ofBool (X.x0.getLsbD b) ++ BitVec.ofBool (X.x1.getLsbD b) ++ BitVec.ofBool (X.x2.getLsbD b)
    ++ BitVec.ofBool (X.x3.getLsbD b) ++ BitVec.ofBool (X.x4.getLsbD b)

/-- The 5-bit substitution table of R105. -/
def sboxTable : List (BitVec 5) :=
  [0x04#5, 0x0b#5, 0x1f#5, 0x14#5, 0x1a#5, 0x15#5, 0x09#5, 0x02#5,
   0x1b#5, 0x05#5, 0x08#5, 0x12#5, 0x1d#5, 0x03#5, 0x06#5, 0x1c#5,
   0x1e#5, 0x13#5, 0x07#5, 0x0e#5, 0x00#5, 0x0d#5, 0x11#5, 0x18#5,
   0x10#5, 0x0c#5, 0x01#5, 0x19#5, 0x16#5, 0x0a#5, 0x0f#5, 0x17#5]

end Sys2Proof.Machine
end

