-- ==== Sys2Proof/Certificates/Slice0/Obligations.lean ====
section
/-! DEFINITION. The statements for the provers. Each docstring names the rule of spec/ it formalises. Statements
that need the S-box's values say so: they are about the default `SBOX5` of log entry 2. -/

open Sys2Proof Sys2Proof.Machine

/-! ### Reset, invariant, totality -/

/-- 10_state.md R29: the values after reset. `POS` is unspecified there, and nothing is said of it. -/
def Obligations.ResetLeavesZeroAndIdle : Prop :=
  State.reset.S = { x0 := 0#64, x1 := 0#64, x2 := 0#64, x3 := 0#64, x4 := 0#64 } ∧
  (∀ (X : Store) (k : Nat), k < X.size → readStore X k State.reset = 0x00#8) ∧
  State.reset.adlen = 0x00#8 ∧ State.reset.ptlen = 0x00#8 ∧ State.reset.present = 0#6 ∧
  State.reset.status = { busy := false, done := false, err := .none } ∧
  statusByte State.reset.status = 0x00#8 ∧
  State.reset.mpc = .idle ∧
  step State.reset = .next State.reset

/-- 70_reset_and_hazards.md R230: the reset event, from any state, busy or idle. The parameters are no state of
R29 and stay (R234). -/
def Obligations.ResetEventFromAnyState : Prop :=
  ∀ (s : State) (rest : List HostAction), s.inputs = .reset :: rest →
    ∃ t, step s = .next t ∧
      t.S = State.reset.S ∧ (∀ a, memGet t.mem a = 0x00#8) ∧
      t.adlen = 0x00#8 ∧ t.ptlen = 0x00#8 ∧ t.present = 0#6 ∧
      t.status.busy = false ∧ t.status.done = false ∧ t.status.err = .none ∧
      t.mpc = .idle ∧ t.microOps = [] ∧
      t.params = s.params ∧ t.inputs = rest ∧ t.reads = s.reads ∧
      step { t with inputs := [] } = .next { t with inputs := [] }

/-- The invariant holds after reset. -/
def Obligations.InvariantHoldsAtReset : Prop := MachineInv State.reset

/-- Every step keeps the invariant: the memory's canonical form and its confinement to the stores (R44),
`BUSY` = 1 exactly when `MPC ≠ IDLE` (R24), `BUSY` and `DONE` never both 1 (R23), `BUSY` never 1 in the atomic
view (R171), and the sequencer inside the list of a command that passed its tests (R172). -/
def Obligations.EveryStepKeepsInvariant : Prop :=
  ∀ s t : State, MachineInv s → step s = .next t → MachineInv t

/-- Every host access, every command byte, a reset and a turn of the block has an outcome: no step stops
(20_memory.md R47, 60_exceptions.md R203, R204, 42_control.md R175). -/
def Obligations.EveryStepAnswersNext : Prop := ∀ s : State, ∃ t, step s = .next t

/-! ### Decoding and running a command -/

/-- The four command bytes of 30_encoding.md R71, bit by bit as `op` and `arg`, and no other byte stands for
a command; the encoder gives the same bytes. -/
def Obligations.CommandBytesDecode : Prop :=
  decode 0b00010110#8 = .command .perm6 ∧ decode 0b00011000#8 = .command .perm8 ∧
  decode 0b00011100#8 = .command .perm12 ∧ decode 0b00100000#8 = .command .encrypt ∧
  (∀ (c : Byte) (i : Instr), decode c = .command i → c = encode i) ∧
  encode .perm6 = 0x16#8 ∧ encode .perm8 = 0x18#8 ∧ encode .perm12 = 0x1c#8 ∧ encode .encrypt = 0x20#8

/-- Decoding the encoding of a well-formed command gives the command, and every command is well formed. -/
def Obligations.DecodeOfEncode : Prop :=
  ∀ i : Instr, i.wellFormed = true ∧ decode (encode i) = .command i

/-- 30_encoding.md R72: the round count of a permute command is its `arg`, unscaled. -/
def Obligations.RoundCountIsArg : Prop :=
  Instr.perm6.roundCount = some (roundCount .r6) ∧ Instr.perm8.roundCount = some (roundCount .r8) ∧
  Instr.perm12.roundCount = some (roundCount .r12) ∧ Instr.encrypt.roundCount = none

/-- A step runs the decoded command: the host's write of its byte to `CMD` of an idle block clears the previous
report and executes it (42_control.md R170), in this one step where the latency is zero (R171); where it is
not, this step rejects the command or starts it (R172). -/
def Obligations.StepRunsDecodedCommand : Prop :=
  ∀ (s : State) (c : Byte) (i : Instr) (rest : List HostAction),
    s.inputs = .write cmdAddr c :: rest → s.status.busy = false → decode c = .command i →
    (s.params.timing = .atomic → step s = exec i (accept (s.setInputs rest))) ∧
    (s.params.timing = .timed → step s = .next (match commandError i s with
      | some e => raise e (accept (s.setInputs rest))
      | none => start i (accept (s.setInputs rest))))

/-- 30_encoding.md R73: every byte but the four is illegal, 252 of them; submitted to an idle block it changes
nothing but `STATUS`, which then reads `DONE` with `ERR` = 3. -/
def Obligations.IllegalByteOnlyReports : Prop :=
  (∀ (s : State) (c : Byte) (rest : List HostAction),
    s.inputs = .write cmdAddr c :: rest → s.status.busy = false →
    c ≠ 0x16#8 → c ≠ 0x18#8 → c ≠ 0x1c#8 → c ≠ 0x20#8 →
    ∃ t, step s = .next t ∧ statusByte t.status = 0x0e#8 ∧
      t = { s with inputs := rest, status := { busy := false, done := true, err := .illegalCommand } }) ∧
  ((List.range 256).filter (fun n => match decode (BitVec.ofNat 8 n) with
    | .illegal _ => true
    | .command _ => false)).length = 252

/-! ### The engine -/

/-- 40_permutation.md R101: the formula, its range, and the three rows of the table. -/
def Obligations.RoundConstants : Prop :=
  (∀ (r : Rounds) (pos : Nat), 1 ≤ pos → pos ≤ roundCount r →
    (roundConstant r pos : Int) = (rcBase r : Int) - ((pos : Int) - 1) * 15 ∧
    75 ≤ roundConstant r pos ∧ roundConstant r pos ≤ 240) ∧
  rcBase .r6 = 0x96 ∧ rcBase .r8 = 0xb4 ∧ rcBase .r12 = 0xf0 ∧
  (List.range' 1 12).map (roundConstant .r12)
    = [0xf0, 0xe1, 0xd2, 0xc3, 0xb4, 0xa5, 0x96, 0x87, 0x78, 0x69, 0x5a, 0x4b] ∧
  (List.range' 1 8).map (roundConstant .r8) = [0xb4, 0xa5, 0x96, 0x87, 0x78, 0x69, 0x5a, 0x4b] ∧
  (List.range' 1 6).map (roundConstant .r6) = [0x96, 0x87, 0x78, 0x69, 0x5a, 0x4b]

/-- 40_permutation.md R102: the constant is XORed into bits 7:0 of word 2; every other bit passes. -/
def Obligations.AddRcChangesLowByteOfWordTwo : Prop :=
  ∀ (X : Sponge) (r : Rounds) (pos : Nat), 1 ≤ pos → pos ≤ roundCount r →
    (addRc X r pos).x2 = X.x2 ^^^ BitVec.ofNat 64 (roundConstant r pos) ∧
    (∀ b, 8 ≤ b → (addRc X r pos).x2.getLsbD b = X.x2.getLsbD b) ∧
    (addRc X r pos).x0 = X.x0 ∧ (addRc X r pos).x1 = X.x1 ∧
    (addRc X r pos).x3 = X.x3 ∧ (addRc X r pos).x4 = X.x4

/-- 40_permutation.md R103, of ANY wiring an instance may carry: bit b of the output words depends on bit b of
the input words only, by one 5-bit function, the same at all 64 positions. -/
def Obligations.AnySubLayerIsOneColumnFunction : Prop :=
  ∀ sbox : List SboxOp, ∃ f : BitVec 5 → BitVec 5,
    ∀ (X : Sponge) (b : Nat), b < 64 → column (subLayer sbox X) b = f (column X b)

/-- 40_permutation.md R104, of the default `SBOX5` (log entry 2): the layer in closed form, each output word
as a function of the five input words. -/
def Obligations.DefaultSubLayerIsPublishedWiring : Prop :=
  ∀ X : Sponge, subLayer defaultSbox X =
    (let a0 := X.x0 ^^^ X.x4
     let a4 := X.x4 ^^^ X.x3
     let a2 := X.x2 ^^^ X.x1
     let b0 := a0 ^^^ (~~~X.x1 &&& a2)
     let b1 := X.x1 ^^^ (~~~a2 &&& X.x3)
     let b2 := a2 ^^^ (~~~X.x3 &&& a4)
     let b3 := X.x3 ^^^ (~~~a4 &&& a0)
     let b4 := a4 ^^^ (~~~a0 &&& X.x1)
     { x0 := b0 ^^^ b4, x1 := b1 ^^^ b0, x2 := ~~~b2, x3 := b3 ^^^ b2, x4 := b4 })

/-- 40_permutation.md R105, of the default `SBOX5` (log entry 2): every column goes through the 32-entry
table. -/
def Obligations.DefaultSubLayerIsTheTable : Prop :=
  ∀ (X : Sponge) (b : Nat), b < 64 →
    column (subLayer defaultSbox X) b = sboxTable.getD (column X b).toNat 0#5

/-- 40_permutation.md R106: each row, bit by bit, with the right rotation of 00_scope.md R6 (bit b of
`rotr64(w, n)` is bit (b+n) mod 64 of w). -/
def Obligations.LinLayerRows : Prop :=
  ∀ (X : Sponge) (b : Nat), b < 64 →
    (linLayer X).x0.getLsbD b
      = ((X.x0.getLsbD b ^^ X.x0.getLsbD ((b + 19) % 64)) ^^ X.x0.getLsbD ((b + 28) % 64)) ∧
    (linLayer X).x1.getLsbD b
      = ((X.x1.getLsbD b ^^ X.x1.getLsbD ((b + 61) % 64)) ^^ X.x1.getLsbD ((b + 39) % 64)) ∧
    (linLayer X).x2.getLsbD b
      = ((X.x2.getLsbD b ^^ X.x2.getLsbD ((b + 1) % 64)) ^^ X.x2.getLsbD ((b + 6) % 64)) ∧
    (linLayer X).x3.getLsbD b
      = ((X.x3.getLsbD b ^^ X.x3.getLsbD ((b + 10) % 64)) ^^ X.x3.getLsbD ((b + 17) % 64)) ∧
    (linLayer X).x4.getLsbD b
      = ((X.x4.getLsbD b ^^ X.x4.getLsbD ((b + 7) % 64)) ^^ X.x4.getLsbD ((b + 41) % 64))

/-- 40_permutation.md R107, R108: a permutation is the rounds at positions 1 to r, each the three layers in
order. -/
def Obligations.PermuteIsItsRounds : Prop :=
  (∀ (sbox : List SboxOp) (r : Rounds) (pos : Nat) (X : Sponge),
    round sbox r pos X = linLayer (subLayer sbox (addRc X r pos))) ∧
  (∀ (sbox : List SboxOp) (r : Rounds) (X : Sponge),
    permute sbox r X
      = (List.range' 1 (roundCount r)).foldl (fun Y pos => linLayer (subLayer sbox (addRc Y r pos))) X)

/-- 40_permutation.md R113: the relations between the round counts. -/
def Obligations.RoundCountRelations : Prop :=
  ∀ (sbox : List SboxOp) (X : Sponge),
    permute sbox .r12 X = permute sbox .r6 (runRounds sbox .r12 6 X) ∧
    permute sbox .r12 X = permute sbox .r8 (runRounds sbox .r12 4 X) ∧
    permute sbox .r8 X = permute sbox .r6 (runRounds sbox .r8 2 X)

/-- 40_permutation.md R114: the permutation is a bijection on 320-bit states for each round count, for every
wiring whose substitution layer is one, and the default `SBOX5` (log entry 2) is such a wiring. -/
def Obligations.PermuteIsBijective : Prop :=
  (∀ sbox : List SboxOp, Function.Bijective (subLayer sbox) →
    ∀ r : Rounds, Function.Bijective (permute sbox r)) ∧
  (∀ r : Rounds, Function.Bijective (permute defaultSbox r))

/-- The examples of 40_permutation.md R109 to R111, for the default `SBOX5` (log entry 2). -/
def Obligations.ZeroStateExamples : Prop :=
  permute defaultSbox .r6 Sponge.zero =
    { x0 := 0x160c84f20faad4f1#64, x1 := 0x21495b1b0ae33eef#64, x2 := 0xe0377d04e23a914b#64,
      x3 := 0x2b23481598ffa8ea#64, x4 := 0x649af379ba83cd30#64 } ∧
  permute defaultSbox .r8 Sponge.zero =
    { x0 := 0x1418f8af721aa830#64, x1 := 0xa5425f1f8cb31388#64, x2 := 0xa01ef761bf8e1652#64,
      x3 := 0xf01fdabf8c8a82b4#64, x4 := 0x0168260badf76a06#64 } ∧
  permute defaultSbox .r12 Sponge.zero =
    { x0 := 0x78ea7ae5cfebb108#64, x1 := 0x9b9bfb8513b560f7#64, x2 := 0x6937f83e03d11a50#64,
      x3 := 0x3fe53f36f2c1178c#64, x4 := 0x045d648e4def12c9#64 }

/-! ### The permute commands: result, completion and frame -/

/-- 40_permutation.md R109: `PERM6` completes from every state; `S` is permuted in place, `STATUS` reports
success, and the operands, every byte of memory, the parameters and the host's side are as they were, whatever
`PRESENT`, the lengths and the stores hold. `POS` of the idle block is in PosIsKeptWhereItIsMeaningless. -/
def Obligations.PermSixCompletes : Prop :=
  ∀ s : State, ∃ t, exec .perm6 s = .next t ∧
    t.S = permute s.params.sbox5 .r6 s.S ∧
    t.status = { busy := false, done := true, err := .none } ∧ statusByte t.status = 0x02#8 ∧
    t.mpc = .idle ∧ t.microOps = [] ∧
    SameOperands s t ∧ (∀ a, memGet t.mem a = memGet s.mem a) ∧ SameOutside s t

/-- 40_permutation.md R110: `PERM8`, likewise. -/
def Obligations.PermEightCompletes : Prop :=
  ∀ s : State, ∃ t, exec .perm8 s = .next t ∧
    t.S = permute s.params.sbox5 .r8 s.S ∧
    t.status = { busy := false, done := true, err := .none } ∧ statusByte t.status = 0x02#8 ∧
    t.mpc = .idle ∧ t.microOps = [] ∧
    SameOperands s t ∧ (∀ a, memGet t.mem a = memGet s.mem a) ∧ SameOutside s t

/-- 40_permutation.md R111: `PERM12`, likewise. -/
def Obligations.PermTwelveCompletes : Prop :=
  ∀ s : State, ∃ t, exec .perm12 s = .next t ∧
    t.S = permute s.params.sbox5 .r12 s.S ∧
    t.status = { busy := false, done := true, err := .none } ∧ statusByte t.status = 0x02#8 ∧
    t.mpc = .idle ∧ t.microOps = [] ∧
    SameOperands s t ∧ (∀ a, memGet t.mem a = memGet s.mem a) ∧ SameOutside s t

/-- `POS` after a command's one event is what it was: THE MODEL'S CHOICE, log entry 17. 10_state.md R24 calls
`POS` meaningless outside a permutation, and 93_implementation_defined.md U15 lets it be any value. -/
def Obligations.PosIsKeptWhereItIsMeaningless : Prop :=
  ∀ (i : Instr) (s t : State), exec i s = .next t → t.pos = s.pos

/-! ### ENCRYPT: operands -/

/-- 20_memory.md R40, R41: bytes to word and back, first byte most significant. -/
def Obligations.BigEndianBothWays : Prop :=
  (∀ b : List Byte, b.length = 8 →
    (be64 b).toNat = ((List.range 8).map (fun k => (b.getD k 0#8).toNat * 2 ^ (56 - 8 * k))).sum) ∧
  (∀ (w : Word) (k b : Nat), k < 8 → b < 8 →
    ((bytes8 w).getD k 0#8).getLsbD b = w.getLsbD (56 - 8 * k + b)) ∧
  (∀ w : Word, be64 (bytes8 w) = w) ∧
  (∀ b : List Byte, b.length = 8 → bytes8 (be64 b) = b)

/-- 41_aead_orchestrator.md R132: the block counts and the tail length; after whole blocks of data the last
block is the pure padding block. First of a number of bytes, then of `s` and `t`, which are computed from the
8-bit `ADLEN` and `PTLEN` "over the natural numbers (no 8-bit wrap-around)": for every value they hold. -/
def Obligations.BlockCounts : Prop :=
  (∀ n : Nat, n ≤ 254 →
    blockCount n = (n + 1 + 7) / 8 ∧ blockCount n = n / 8 + 1 ∧
    1 ≤ blockCount n ∧ blockCount n ≤ 32 ∧
    tailLength n = n % 8 ∧ tailLength n ≤ 7 ∧ n = 8 * (blockCount n - 1) + tailLength n ∧
    (n % 8 = 0 → ∀ (X : Store) (s : State), blk X n (blockCount n - 1) s = 0x8000000000000000#64)) ∧
  (∀ s : State,
    adBlocks s = (s.adlen.toNat + 1 + 7) / 8 ∧ adBlocks s = (s.adlen.toNat + 8) / 8 ∧
    adBlocks s = s.adlen.toNat / 8 + 1 ∧ 1 ≤ adBlocks s ∧ adBlocks s ≤ 32 ∧
    ptBlocks s = (s.ptlen.toNat + 1 + 7) / 8 ∧ ptBlocks s = (s.ptlen.toNat + 8) / 8 ∧
    ptBlocks s = s.ptlen.toNat / 8 + 1 ∧ 1 ≤ ptBlocks s ∧ ptBlocks s ≤ 32 ∧
    s.ptlen.toNat = 8 * (ptBlocks s - 1) + tailLength s.ptlen.toNat ∧
    (s.adlen.toNat % 8 = 0 → blk .ad s.adlen.toNat (adBlocks s - 1) s = 0x8000000000000000#64) ∧
    (s.ptlen.toNat % 8 = 0 → blk .pt s.ptlen.toNat (ptBlocks s - 1) s = 0x8000000000000000#64))

/-- 41_aead_orchestrator.md R131: byte k of block j is data, 0x80 or zero; the blocks together are the data,
one 0x80 and zeros to a multiple of 8 bytes. -/
def Obligations.PaddedBlocks : Prop :=
  ∀ (X : Store) (n : Nat) (s : State), n ≤ 254 →
    (∀ j k, k < 8 → byteOf (blk X n j s) k =
      if 8 * j + k < n then readStore X (8 * j + k) s else if 8 * j + k = n then 0x80#8 else 0x00#8) ∧
    (List.range (blockCount n)).flatMap (fun j => bytes8 (blk X n j s))
      = Reference.padded (readBytes X 0 n s) ∧
    (Reference.padded (readBytes X 0 n s)).length = 8 * blockCount n

/-! ### ENCRYPT: errors -/

/-- 60_exceptions.md R201: `MissingBuffer` is reported exactly when `PRESENT[5:0]` is not all ones, by
`ENCRYPT` only, and nothing else changes: of the command in one event, of the test at its acceptance that both
views make, and of the step that submits the byte to an idle block, whatever its latency. -/
def Obligations.MissingBufferExactly : Prop :=
  (∀ s : State, s.present ≠ 0b111111#6 → exec .encrypt s
    = .next { s with status := { busy := s.status.busy, done := true, err := .missingBuffer } }) ∧
  (∀ (i : Instr) (s t : State), exec i s = .next t → t.status.err = .missingBuffer →
    i = .encrypt ∧ s.present ≠ 0b111111#6) ∧
  (∀ (i : Instr) (s : State),
    commandError i s = some .missingBuffer ↔ i = .encrypt ∧ s.present ≠ 0b111111#6) ∧
  (∀ (s : State) (rest : List HostAction),
    s.inputs = .write cmdAddr 0x20#8 :: rest → s.status.busy = false → s.present ≠ 0b111111#6 →
    step s = .next { s with
      inputs := rest, status := { busy := false, done := true, err := .missingBuffer } }) ∧
  (∀ (s t : State) (c : Byte) (rest : List HostAction),
    s.inputs = .write cmdAddr c :: rest → s.status.busy = false → step s = .next t →
    t.status.err = .missingBuffer → c = 0x20#8 ∧ s.present ≠ 0b111111#6)

/-- 60_exceptions.md R202 and R205: with all buffers present, `LengthOutOfRange` is reported exactly when a
length is 255, by `ENCRYPT` only, and nothing else changes: of the command in one event, of the test at its
acceptance that both views make, and of the step that submits the byte to an idle block, whatever its latency.
The test finds no error exactly of a permute command, or of `ENCRYPT` where neither cause holds. -/
def Obligations.LengthOutOfRangeExactly : Prop :=
  (∀ s : State, s.present = 0b111111#6 → s.adlen = 255#8 ∨ s.ptlen = 255#8 → exec .encrypt s
    = .next { s with status := { busy := s.status.busy, done := true, err := .lengthOutOfRange } }) ∧
  (∀ (i : Instr) (s t : State), exec i s = .next t → t.status.err = .lengthOutOfRange →
    i = .encrypt ∧ s.present = 0b111111#6 ∧ (s.adlen = 255#8 ∨ s.ptlen = 255#8)) ∧
  (∀ (i : Instr) (s : State), commandError i s = some .lengthOutOfRange ↔
    i = .encrypt ∧ s.present = 0b111111#6 ∧ (s.adlen = 255#8 ∨ s.ptlen = 255#8)) ∧
  (∀ (i : Instr) (s : State), commandError i s = none ↔
    (i = .encrypt → s.present = 0b111111#6 ∧ s.adlen ≠ 255#8 ∧ s.ptlen ≠ 255#8)) ∧
  (∀ (s : State) (rest : List HostAction),
    s.inputs = .write cmdAddr 0x20#8 :: rest → s.status.busy = false →
    s.present = 0b111111#6 → s.adlen = 255#8 ∨ s.ptlen = 255#8 →
    step s = .next { s with
      inputs := rest, status := { busy := false, done := true, err := .lengthOutOfRange } }) ∧
  (∀ (s t : State) (c : Byte) (rest : List HostAction),
    s.inputs = .write cmdAddr c :: rest → s.status.busy = false → step s = .next t →
    t.status.err = .lengthOutOfRange →
    c = 0x20#8 ∧ s.present = 0b111111#6 ∧ (s.adlen = 255#8 ∨ s.ptlen = 255#8))

/-- 60_exceptions.md R206: a byte whose submission to an idle block ends with an error, in either view, leaves
the report and nothing else: `DONE` is 1, `BUSY` stays 0, `MPC` stays, every other item is as it was. -/
def Obligations.ErrorChangesOnlyTheReport : Prop :=
  ∀ (s t : State) (c : Byte) (rest : List HostAction),
    s.inputs = .write cmdAddr c :: rest → s.status.busy = false →
    step s = .next t → t.status.err ≠ .none →
    t.status.done = true ∧ t.status.busy = false ∧
    t = { s with inputs := rest, status := t.status }

/-! ### ENCRYPT: result, completion and frame -/

/-- 41_aead_orchestrator.md R143: with all six buffers present and both lengths at most 254 `ENCRYPT`
completes: `S` is zero, `STATUS` reports success, the operands and the parameters are as they were, and every
byte of memory but `CT[0..PTLEN-1]` and `TAG[0..15]` reads as before. -/
def Obligations.EncryptCompletes : Prop :=
  ∀ s : State, s.present = 0b111111#6 → s.adlen.toNat ≤ 254 → s.ptlen.toNat ≤ 254 →
    ∃ t, exec .encrypt s = .next t ∧
      t.S = Sponge.zero ∧
      t.status = { busy := false, done := true, err := .none } ∧ statusByte t.status = 0x02#8 ∧
      t.mpc = .idle ∧ t.microOps = [] ∧
      SameOperands s t ∧ SameOutside s t ∧
      (∀ a, ¬ encryptStores s a → memGet t.mem a = memGet s.mem a)

/-- 41_aead_orchestrator.md R144: the ciphertext and the tag are the pure function `Encrypt` of the parameters,
the key, the nonce, the associated data and the plaintext, and have the lengths the source promises. -/
def Obligations.EncryptComputesReference : Prop :=
  ∀ s : State, Memory.wf s.mem = true →
    s.present = 0b111111#6 → s.adlen.toNat ≤ 254 → s.ptlen.toNat ≤ 254 →
    ∃ t, exec .encrypt s = .next t ∧
      (readBytes .ct 0 s.ptlen.toNat t, readBytes .tag 0 16 t)
        = Reference.encrypt s.params.sbox5 s.params.iv (readBytes .key 0 16 s) (readBytes .nonce 0 16 s)
            (readBytes .ad 0 s.adlen.toNat s) (readBytes .pt 0 s.ptlen.toNat s)

/-- 41_aead_orchestrator.md R144: "It depends on nothing else": two blocks that agree on the operands and
parameters produce the same ciphertext and tag, whatever their `S`, `CT`, `TAG`, `STATUS` and the store bytes
beyond the lengths hold. -/
def Obligations.EncryptDependsOnOperandsOnly : Prop :=
  ∀ s s' t t' : State, Memory.wf s.mem = true → Memory.wf s'.mem = true → SameEncryptInputs s s' →
    s.present = 0b111111#6 → s.adlen.toNat ≤ 254 → s.ptlen.toNat ≤ 254 →
    exec .encrypt s = .next t → exec .encrypt s' = .next t' →
    readBytes .ct 0 s.ptlen.toNat t' = readBytes .ct 0 s.ptlen.toNat t ∧
    readBytes .tag 0 16 t' = readBytes .tag 0 16 t

/-- 41_aead_orchestrator.md R139 (d): ciphertext byte m is `PT[m]` XOR a byte that depends on the key, the
nonce, the associated data and the plaintext of earlier blocks only; not even on `PTLEN`. -/
def Obligations.CiphertextByteIsMaskedPlaintext : Prop :=
  ∀ (s s' t t' : State) (m : Nat), Memory.wf s.mem = true → Memory.wf s'.mem = true →
    s.present = 0b111111#6 → s'.present = 0b111111#6 →
    s'.params.iv = s.params.iv → s'.params.sbox5 = s.params.sbox5 → s'.adlen = s.adlen →
    s.adlen.toNat ≤ 254 → s.ptlen.toNat ≤ 254 → s'.ptlen.toNat ≤ 254 →
    (∀ k, k < 16 → readStore .key k s' = readStore .key k s) →
    (∀ k, k < 16 → readStore .nonce k s' = readStore .nonce k s) →
    (∀ k, k < s.adlen.toNat → readStore .ad k s' = readStore .ad k s) →
    (∀ k, k < 8 * (m / 8) → readStore .pt k s' = readStore .pt k s) →
    m < s.ptlen.toNat → m < s'.ptlen.toNat →
    exec .encrypt s = .next t → exec .encrypt s' = .next t' →
    readStore .ct m t ^^^ readStore .pt m s = readStore .ct m t' ^^^ readStore .pt m s'

/-- 41_aead_orchestrator.md R141: tag byte i is byte (i mod 8) of `S[3 + i div 8]` XOR `KEY[i]`; equivalently
two masked words; `S` is not modified, and no byte outside `TAG` is. -/
def Obligations.TagBytesAreMaskedWords : Prop :=
  ∀ s : State, Memory.wf s.mem = true →
    (∀ i, i < 8 → readStore .tag i (mTagOut s) = byteOf s.S.x3 i ^^^ readStore .key i s) ∧
    (∀ i, i < 8 → readStore .tag (8 + i) (mTagOut s) = byteOf s.S.x4 i ^^^ readStore .key (8 + i) s) ∧
    readBytes .tag 0 8 (mTagOut s) = bytes8 (s.S.x3 ^^^ k0 s) ∧
    readBytes .tag 8 8 (mTagOut s) = bytes8 (s.S.x4 ^^^ k1 s) ∧
    (mTagOut s).S = s.S ∧
    (∀ a, ¬ (Store.tag.base ≤ a ∧ a < Store.tag.base + 16) →
      memGet (mTagOut s).mem a = memGet s.mem a)

/-- 41_aead_orchestrator.md R137, R138: a full block emits the eight bytes of `S[0]`, the last block its first
l bytes; neither emission changes any other byte of memory, nor anything of the state but the memory. -/
def Obligations.EmissionsWriteCiphertext : Prop :=
  ∀ s : State, Memory.wf s.mem = true →
    (∀ j k, k < 8 → readStore .ct (8 * j + k) (mEmit j s) = byteOf s.S.x0 k) ∧
    (∀ k, k < tailLength s.ptlen.toNat →
      readStore .ct (8 * (ptBlocks s - 1) + k) (mEmitTail s) = byteOf s.S.x0 k) ∧
    (∀ j a, ¬ (Store.ct.base + 8 * j ≤ a ∧ a < Store.ct.base + 8 * j + 8) →
      memGet (mEmit j s).mem a = memGet s.mem a) ∧
    (∀ a, ¬ (Store.ct.base + 8 * (ptBlocks s - 1) ≤ a ∧
        a < Store.ct.base + 8 * (ptBlocks s - 1) + tailLength s.ptlen.toNat) →
      memGet (mEmitTail s).mem a = memGet s.mem a) ∧
    (∀ j, mEmit j s = { s with mem := (mEmit j s).mem }) ∧
    mEmitTail s = { s with mem := (mEmitTail s).mem }

/-! ### The timed view -/

/-- 41_aead_orchestrator.md R145, 42_control.md R172: the length of `L(ENCRYPT)`, its permutation calls and its
rounds, and their greatest values. -/
def Obligations.EncryptListCounts : Prop :=
  ∀ s t : Nat, 1 ≤ s → 1 ≤ t →
    (encryptOps s t).length = 2 * s + 3 * t + 7 ∧
    permCalls (encryptOps s t) = s + t + 1 ∧
    roundsOf (encryptOps s t) = 24 + 6 * (s + t - 1) ∧
    (s ≤ 32 → t ≤ 32 → (encryptOps s t).length ≤ 167 ∧ roundsOf (encryptOps s t) ≤ 402)

/-- 42_control.md R172 at acceptance: a started command has `BUSY` = 1, reads 0x01, and stands at entry 0 of
its list; the rest of the block is as it was. -/
def Obligations.StartedCommandIsBusy : Prop :=
  ∀ (i : Instr) (s : State),
    (start i s).status = { busy := true, done := false, err := .none } ∧
    statusByte (start i s).status = 0x01#8 ∧
    (start i s).mpc = .entry 0 ∧ (start i s).microOps = opsOf i s ∧
    (start i s).S = s.S ∧ (start i s).mem = s.mem ∧ SameOperands s (start i s) ∧ SameOutside s (start i s)

/-- 42_control.md R174: the timed view refines the atomic view. An idle block with a positive latency accepts a
command it does not reject; then, with host reads and writes of any kind falling between its turns (a poll is in
PollLastsUntilTheCommandEnds, a reset in ResetEventFromAnyState), it is busy until the last turn of the command's list, and after it the block is what the one event of the atomic view
leaves, but for `POS`, which is unspecified there. -/
def Obligations.TimedViewRefinesAtomicView : Prop :=
  ∀ (s t : State) (c : Byte) (i : Instr) (acts rest : List HostAction),
    s.status.busy = false → s.params.timing = .timed →
    decode c = .command i → commandError i s = none →
    s.inputs = .write cmdAddr c :: (acts ++ .wait :: rest) →
    (∀ h ∈ acts, h ≠ .poll ∧ h ≠ .reset) →
    acts.count .wait + 1 = turnsOf (opsOf i s) →
    exec i (accept s) = .next t →
    (∀ n, n ≤ acts.length → ∃ u, core.run (n + 1) s = .next u ∧ u.status.busy = true) ∧
    ∃ u, core.run (acts.length + 2) s = .next u ∧ u.status.busy = false ∧
      u.block = t.block ∧ u.inputs = rest

/-- 30_encoding.md R76, `POLL`, over a whole command of the timed view (42_control.md R173, R174): after the
submission, and host reads and writes and turns that do not end the command, a poll goes on until the block is
idle. Every `STATUS` it reads before that is 0x01, the last one, its result, is 0x02, and the block is what the
one event of the atomic view leaves, but for `POS`. That it reads once a turn is the model's choice, log entry
7. With no actions between, the two lines are `RUN` of R77. -/
def Obligations.PollLastsUntilTheCommandEnds : Prop :=
  ∀ (s t : State) (c : Byte) (i : Instr) (acts rest : List HostAction) (n : Nat),
    s.status.busy = false → s.params.timing = .timed →
    decode c = .command i → commandError i s = none →
    s.inputs = .write cmdAddr c :: (acts ++ .poll :: rest) →
    (∀ h ∈ acts, h ≠ .poll ∧ h ≠ .reset) →
    acts.count .wait + n = turnsOf (opsOf i s) → 1 ≤ n →
    exec i (accept s) = .next t →
    ∃ v u, core.run (acts.length + 1) s = .next v ∧ v.status.busy = true ∧
      core.run (n + 1) v = .next u ∧ u.status.busy = false ∧ u.block = t.block ∧ u.inputs = rest ∧
      bytesReadSince v u = List.replicate n 0x01#8 ++ [0x02#8] ∧
      scriptValue .poll v u = some (.byte 0x02#8)

/-- 42_control.md R175: every accepted command ends. A busy block that the invariant holds of is idle, with its
report, after at most as many turns as its list takes, and that list has at most 167 entries. -/
def Obligations.EveryAcceptedCommandEnds : Prop :=
  ∀ s : State, MachineInv s → s.status.busy = true →
    s.microOps.length ≤ 167 ∧
    ∃ n, 1 ≤ n ∧ n ≤ turnsOf s.microOps ∧
      (turns n s).status = { busy := false, done := true, err := .none } ∧ (turns n s).mpc = .idle

/-- 20_memory.md R55: while `BUSY` = 1 every host write, to `CMD` too, has no effect, and every host read other
than of `STATUS` returns 0x00 and changes nothing of the block. -/
def Obligations.BusyBlockIgnoresHost : Prop :=
  ∀ (s : State) (rest : List HostAction), s.status.busy = true →
    (∀ a v, s.inputs = .write a v :: rest → step s = .next { s with inputs := rest }) ∧
    (∀ a, s.inputs = .read a :: rest → a ≠ 0x031#10 →
      step s = .next { s with inputs := rest, reads := s.reads ++ [0x00#8] }) ∧
    (s.inputs = .read 0x031#10 :: rest →
      step s = .next { s with inputs := rest, reads := s.reads ++ [statusByte s.status] })

/-- 10_state.md R23, over all states the invariant holds of: `STATUS` of a busy block reads 0x01. -/
def Obligations.BusyStatusReadsOne : Prop :=
  ∀ s : State, MachineInv s → s.status.busy = true → hostRead 0x031#10 s = 0x01#8

/-- 42_control.md R176: control never depends on data. Whether a command is rejected, its list, and where the
sequencer goes at a turn are the same for two blocks that agree on the control state, whatever `S` and the
stores hold. -/
def Obligations.ControlIndependentOfData : Prop :=
  (∀ (i : Instr) (s s' : State), s'.present = s.present → s'.adlen = s.adlen → s'.ptlen = s.ptlen →
    commandError i s' = commandError i s ∧ opsOf i s' = opsOf i s) ∧
  (∀ s s' : State, s'.mpc = s.mpc → s'.pos = s.pos → s'.microOps = s.microOps → s'.status = s.status →
    (blockTurn s').mpc = (blockTurn s).mpc ∧ (blockTurn s').pos = (blockTurn s).pos ∧
    (blockTurn s').microOps = (blockTurn s).microOps ∧ (blockTurn s').status = (blockTurn s).status)

/-! ### The host port -/

/-- 20_memory.md R45 with the map of R44: what each address of an idle block reads, and that a read changes
nothing of the block. -/
def Obligations.HostReadMap : Prop :=
  (∀ (s : State), s.status.busy = false →
    (∀ (i : Fin 5) (k : Nat), k < 8 →
      hostRead (BitVec.ofNat 10 (8 * i.val + k)) s = byteOf (s.S.get i) k) ∧
    hostRead 0x030#10 s = 0x00#8 ∧ hostRead 0x031#10 s = statusByte s.status ∧
    hostRead 0x032#10 s = s.adlen ∧ hostRead 0x033#10 s = s.ptlen ∧
    hostRead 0x034#10 s = s.present.setWidth 8 ∧
    (∀ k, k < 16 → hostRead (BitVec.ofNat 10 (0x040 + k)) s = readStore .key k s) ∧
    (∀ k, k < 16 → hostRead (BitVec.ofNat 10 (0x050 + k)) s = readStore .nonce k s) ∧
    (∀ k, k < 16 → hostRead (BitVec.ofNat 10 (0x060 + k)) s = readStore .tag k s) ∧
    (∀ k, k < 254 → hostRead (BitVec.ofNat 10 (0x100 + k)) s = readStore .ad k s) ∧
    (∀ k, k < 254 → hostRead (BitVec.ofNat 10 (0x200 + k)) s = readStore .pt k s) ∧
    (∀ k, k < 254 → hostRead (BitVec.ofNat 10 (0x300 + k)) s = readStore .ct k s) ∧
    (∀ a : HostAddr, itemAt a = .reserved → hostRead a s = 0x00#8)) ∧
  (∀ (s : State) (a : HostAddr), s.status.busy = true → a ≠ 0x031#10 → hostRead a s = 0x00#8) ∧
  (∀ s : State, hostRead 0x031#10 s = statusByte s.status) ∧
  (∀ a : HostAddr, itemAt a = .reserved ↔
    (0x028 ≤ a.toNat ∧ a.toNat ≤ 0x02f) ∨ (0x035 ≤ a.toNat ∧ a.toNat ≤ 0x03f) ∨
    (0x070 ≤ a.toNat ∧ a.toNat ≤ 0x0ff) ∨ (0x1fe ≤ a.toNat ∧ a.toNat ≤ 0x1ff) ∨
    (0x2fe ≤ a.toNat ∧ a.toNat ≤ 0x2ff) ∨ (0x3fe ≤ a.toNat ∧ a.toNat ≤ 0x3ff)) ∧
  (∀ (s : State) (a : HostAddr) (rest : List HostAction), s.inputs = .read a :: rest →
    step s = .next { s with inputs := rest, reads := s.reads ++ [hostRead a s] })

/-- 20_memory.md R46 with the map of R44, R47: after a host write of an idle block, other than to `CMD`, every
address reads as before, but the address written, where it is writable: that one reads the byte, `PRESENT` its
bits 5:0. `STATUS` is as it was (for any address but `CMD`). -/
def Obligations.HostWriteThenRead : Prop :=
  ∀ (s : State) (a : HostAddr) (v : Byte) (rest : List HostAction),
    Memory.wf s.mem = true → s.status.busy = false → a ≠ 0x030#10 → s.inputs = .write a v :: rest →
    ∃ t, step s = .next t ∧ t.status = s.status ∧ Memory.wf t.mem = true ∧
      ∀ x : HostAddr, hostRead x t =
        if x = a ∧ (a.toNat ≤ 0x027 ∨ a.toNat = 0x032 ∨ a.toNat = 0x033 ∨
            (0x040 ≤ a.toNat ∧ a.toNat ≤ 0x05f) ∨ (0x100 ≤ a.toNat ∧ a.toNat ≤ 0x1fd) ∨
            (0x200 ≤ a.toNat ∧ a.toNat ≤ 0x2fd))
        then v
        else if x = a ∧ a.toNat = 0x034 then v &&& 0x3f#8
        else hostRead x s

/-- 42_control.md R173, 60_exceptions.md R207: `DONE` and `ERR` of an idle block stay as they are, and it stays
idle, until a byte is written to `CMD` or a reset: host reads, polls, other host writes and waiting change
nothing of `STATUS`. -/
def Obligations.ReportPersistsUntilNextCommand : Prop :=
  ∀ s t : State, MachineInv s → s.status.busy = false → step s = .next t →
    (∀ v rest, s.inputs ≠ .write cmdAddr v :: rest) → (∀ rest, s.inputs ≠ .reset :: rest) →
    t.status = s.status ∧ t.mpc = .idle

/-- 00_scope.md R5, 70_reset_and_hazards.md R234: no step changes a parameter of the instance. -/
def Obligations.ParametersNeverChange : Prop :=
  ∀ s t : State, step s = .next t → t.params = s.params

/-- 10_state.md R10 and R13, R19 to R21: the block itself writes no operand. Any step but a host write elsewhere
than to `CMD`, or a reset, leaves `KEY`, `NONCE`, `AD`, `PT`, `ADLEN`, `PTLEN` and `PRESENT` as they were. -/
def Obligations.BlockNeverWritesOperands : Prop :=
  ∀ s t : State, MachineInv s → step s = .next t →
    (∀ a v rest, s.inputs = .write a v :: rest → a = cmdAddr) →
    (∀ rest, s.inputs ≠ .reset :: rest) →
    SameOperands s t

/-- 30_encoding.md R76, `POLL`: of an idle block it is one read of `STATUS`, and then over; of a busy block it
reads `STATUS` and stays first in line while the block takes a turn (log entry 7). -/
def Obligations.PollReadsStatusUntilIdle : Prop :=
  ∀ (s : State) (rest : List HostAction), s.inputs = .poll :: rest →
    (s.status.busy = false →
      step s = .next { s with inputs := rest, reads := s.reads ++ [statusByte s.status] }) ∧
    (s.status.busy = true →
      step s = .next (blockTurn { s with reads := s.reads ++ [statusByte s.status] }))

/-- 30_encoding.md R77, `WR64` with 20_memory.md R42: eight steps load `S[i]` with the word, most significant
byte at the lowest address; the other words and everything else of the block are as they were. -/
def Obligations.WriteWordLoadsStateWord : Prop :=
  ∀ (s : State) (i : Fin 5) (w : Word) (rest : List HostAction),
    s.status.busy = false → s.inputs = expandLine (.wr64 i w) ++ rest →
    core.run 8 s = .next { s with S := s.S.set i w, inputs := rest }

/-- 30_encoding.md R77, `RD64` with 20_memory.md R40 to R42: eight steps read the bytes of `S[i]`, most
significant first, the line's value is the word, and nothing of the block changes. -/
def Obligations.ReadWordGivesStateWord : Prop :=
  ∀ (s : State) (i : Fin 5) (rest : List HostAction),
    s.status.busy = false → s.inputs = expandLine (.rd64 i) ++ rest →
    ∃ t, core.run 8 s = .next t ∧ scriptValue (.rd64 i) s t = some (.word (s.S.get i)) ∧
      t = { s with inputs := rest, reads := s.reads ++ bytes8 (s.S.get i) }

/-- 30_encoding.md R77, `RDS`, with 20_memory.md R45: n steps read n ascending addresses in order, the line's
value is those bytes, and nothing of the block changes, idle or busy; a string that passes 0x3ff is no line of
R77 (ScriptLine.wellFormed). -/
def Obligations.ReadStringGivesBytesInOrder : Prop :=
  ∀ (s : State) (a : HostAddr) (n : Nat) (rest : List HostAction),
    a.toNat + n ≤ 1024 → s.inputs = expandLine (.rds a n) ++ rest →
    ∃ t, core.run n s = .next t ∧
      scriptValue (.rds a n) s t
        = some (.bytes ((List.range n).map (fun k => hostRead (BitVec.ofNat 10 (a.toNat + k)) s))) ∧
      t = { s with
        inputs := rest,
        reads := s.reads ++ (List.range n).map (fun k => hostRead (BitVec.ofNat 10 (a.toNat + k)) s) }
end

