-- ==== Sys2Proof/Laws/State.lean ====
section
/-! SUPPORT. One lemma per field per update of the state, true by `rfl`, so that no proof unfolds a record
update. -/

namespace Sys2Proof.Machine

@[simp] theorem State.setS_S (s : State) (X : Sponge) : (s.setS X).S = X := rfl
@[simp] theorem State.setS_adlen (s : State) (X : Sponge) : (s.setS X).adlen = s.adlen := rfl
@[simp] theorem State.setS_ptlen (s : State) (X : Sponge) : (s.setS X).ptlen = s.ptlen := rfl
@[simp] theorem State.setS_present (s : State) (X : Sponge) : (s.setS X).present = s.present := rfl
@[simp] theorem State.setS_status (s : State) (X : Sponge) : (s.setS X).status = s.status := rfl
@[simp] theorem State.setS_mpc (s : State) (X : Sponge) : (s.setS X).mpc = s.mpc := rfl
@[simp] theorem State.setS_pos (s : State) (X : Sponge) : (s.setS X).pos = s.pos := rfl
@[simp] theorem State.setS_microOps (s : State) (X : Sponge) : (s.setS X).microOps = s.microOps := rfl
@[simp] theorem State.setS_mem (s : State) (X : Sponge) : (s.setS X).mem = s.mem := rfl
@[simp] theorem State.setS_params (s : State) (X : Sponge) : (s.setS X).params = s.params := rfl
@[simp] theorem State.setS_inputs (s : State) (X : Sponge) : (s.setS X).inputs = s.inputs := rfl
@[simp] theorem State.setS_reads (s : State) (X : Sponge) : (s.setS X).reads = s.reads := rfl

@[simp] theorem State.setMem_S (s : State) (m : List Host.Cell) : (s.setMem m).S = s.S := rfl
@[simp] theorem State.setMem_adlen (s : State) (m : List Host.Cell) : (s.setMem m).adlen = s.adlen := rfl
@[simp] theorem State.setMem_ptlen (s : State) (m : List Host.Cell) : (s.setMem m).ptlen = s.ptlen := rfl
@[simp] theorem State.setMem_present (s : State) (m : List Host.Cell) : (s.setMem m).present = s.present := rfl
@[simp] theorem State.setMem_status (s : State) (m : List Host.Cell) : (s.setMem m).status = s.status := rfl
@[simp] theorem State.setMem_mpc (s : State) (m : List Host.Cell) : (s.setMem m).mpc = s.mpc := rfl
@[simp] theorem State.setMem_pos (s : State) (m : List Host.Cell) : (s.setMem m).pos = s.pos := rfl
@[simp] theorem State.setMem_microOps (s : State) (m : List Host.Cell) : (s.setMem m).microOps = s.microOps := rfl
@[simp] theorem State.setMem_mem (s : State) (m : List Host.Cell) : (s.setMem m).mem = m := rfl
@[simp] theorem State.setMem_params (s : State) (m : List Host.Cell) : (s.setMem m).params = s.params := rfl
@[simp] theorem State.setMem_inputs (s : State) (m : List Host.Cell) : (s.setMem m).inputs = s.inputs := rfl
@[simp] theorem State.setMem_reads (s : State) (m : List Host.Cell) : (s.setMem m).reads = s.reads := rfl

@[simp] theorem State.setStatus_S (s : State) (st : Status) : (s.setStatus st).S = s.S := rfl
@[simp] theorem State.setStatus_adlen (s : State) (st : Status) : (s.setStatus st).adlen = s.adlen := rfl
@[simp] theorem State.setStatus_ptlen (s : State) (st : Status) : (s.setStatus st).ptlen = s.ptlen := rfl
@[simp] theorem State.setStatus_present (s : State) (st : Status) : (s.setStatus st).present = s.present := rfl
@[simp] theorem State.setStatus_status (s : State) (st : Status) : (s.setStatus st).status = st := rfl
@[simp] theorem State.setStatus_mpc (s : State) (st : Status) : (s.setStatus st).mpc = s.mpc := rfl
@[simp] theorem State.setStatus_pos (s : State) (st : Status) : (s.setStatus st).pos = s.pos := rfl
@[simp] theorem State.setStatus_microOps (s : State) (st : Status) : (s.setStatus st).microOps = s.microOps := rfl
@[simp] theorem State.setStatus_mem (s : State) (st : Status) : (s.setStatus st).mem = s.mem := rfl
@[simp] theorem State.setStatus_params (s : State) (st : Status) : (s.setStatus st).params = s.params := rfl
@[simp] theorem State.setStatus_inputs (s : State) (st : Status) : (s.setStatus st).inputs = s.inputs := rfl
@[simp] theorem State.setStatus_reads (s : State) (st : Status) : (s.setStatus st).reads = s.reads := rfl

@[simp] theorem State.setSequencer_S (s : State) (m : Mpc) (p : Nat) (l : List MicroOp) : (s.setSequencer m p l).S = s.S := rfl
@[simp] theorem State.setSequencer_adlen (s : State) (m : Mpc) (p : Nat) (l : List MicroOp) : (s.setSequencer m p l).adlen = s.adlen := rfl
@[simp] theorem State.setSequencer_ptlen (s : State) (m : Mpc) (p : Nat) (l : List MicroOp) : (s.setSequencer m p l).ptlen = s.ptlen := rfl
@[simp] theorem State.setSequencer_present (s : State) (m : Mpc) (p : Nat) (l : List MicroOp) : (s.setSequencer m p l).present = s.present := rfl
@[simp] theorem State.setSequencer_status (s : State) (m : Mpc) (p : Nat) (l : List MicroOp) : (s.setSequencer m p l).status = s.status := rfl
@[simp] theorem State.setSequencer_mpc (s : State) (m : Mpc) (p : Nat) (l : List MicroOp) : (s.setSequencer m p l).mpc = m := rfl
@[simp] theorem State.setSequencer_pos (s : State) (m : Mpc) (p : Nat) (l : List MicroOp) : (s.setSequencer m p l).pos = p := rfl
@[simp] theorem State.setSequencer_microOps (s : State) (m : Mpc) (p : Nat) (l : List MicroOp) : (s.setSequencer m p l).microOps = l := rfl
@[simp] theorem State.setSequencer_mem (s : State) (m : Mpc) (p : Nat) (l : List MicroOp) : (s.setSequencer m p l).mem = s.mem := rfl
@[simp] theorem State.setSequencer_params (s : State) (m : Mpc) (p : Nat) (l : List MicroOp) : (s.setSequencer m p l).params = s.params := rfl
@[simp] theorem State.setSequencer_inputs (s : State) (m : Mpc) (p : Nat) (l : List MicroOp) : (s.setSequencer m p l).inputs = s.inputs := rfl
@[simp] theorem State.setSequencer_reads (s : State) (m : Mpc) (p : Nat) (l : List MicroOp) : (s.setSequencer m p l).reads = s.reads := rfl

@[simp] theorem State.setInputs_S (s : State) (l : List HostAction) : (s.setInputs l).S = s.S := rfl
@[simp] theorem State.setInputs_adlen (s : State) (l : List HostAction) : (s.setInputs l).adlen = s.adlen := rfl
@[simp] theorem State.setInputs_ptlen (s : State) (l : List HostAction) : (s.setInputs l).ptlen = s.ptlen := rfl
@[simp] theorem State.setInputs_present (s : State) (l : List HostAction) : (s.setInputs l).present = s.present := rfl
@[simp] theorem State.setInputs_status (s : State) (l : List HostAction) : (s.setInputs l).status = s.status := rfl
@[simp] theorem State.setInputs_mpc (s : State) (l : List HostAction) : (s.setInputs l).mpc = s.mpc := rfl
@[simp] theorem State.setInputs_pos (s : State) (l : List HostAction) : (s.setInputs l).pos = s.pos := rfl
@[simp] theorem State.setInputs_microOps (s : State) (l : List HostAction) : (s.setInputs l).microOps = s.microOps := rfl
@[simp] theorem State.setInputs_mem (s : State) (l : List HostAction) : (s.setInputs l).mem = s.mem := rfl
@[simp] theorem State.setInputs_params (s : State) (l : List HostAction) : (s.setInputs l).params = s.params := rfl
@[simp] theorem State.setInputs_inputs (s : State) (l : List HostAction) : (s.setInputs l).inputs = l := rfl
@[simp] theorem State.setInputs_reads (s : State) (l : List HostAction) : (s.setInputs l).reads = s.reads := rfl

@[simp] theorem State.setReads_S (s : State) (l : List Byte) : (s.setReads l).S = s.S := rfl
@[simp] theorem State.setReads_adlen (s : State) (l : List Byte) : (s.setReads l).adlen = s.adlen := rfl
@[simp] theorem State.setReads_ptlen (s : State) (l : List Byte) : (s.setReads l).ptlen = s.ptlen := rfl
@[simp] theorem State.setReads_present (s : State) (l : List Byte) : (s.setReads l).present = s.present := rfl
@[simp] theorem State.setReads_status (s : State) (l : List Byte) : (s.setReads l).status = s.status := rfl
@[simp] theorem State.setReads_mpc (s : State) (l : List Byte) : (s.setReads l).mpc = s.mpc := rfl
@[simp] theorem State.setReads_pos (s : State) (l : List Byte) : (s.setReads l).pos = s.pos := rfl
@[simp] theorem State.setReads_microOps (s : State) (l : List Byte) : (s.setReads l).microOps = s.microOps := rfl
@[simp] theorem State.setReads_mem (s : State) (l : List Byte) : (s.setReads l).mem = s.mem := rfl
@[simp] theorem State.setReads_params (s : State) (l : List Byte) : (s.setReads l).params = s.params := rfl
@[simp] theorem State.setReads_inputs (s : State) (l : List Byte) : (s.setReads l).inputs = s.inputs := rfl
@[simp] theorem State.setReads_reads (s : State) (l : List Byte) : (s.setReads l).reads = l := rfl

@[simp] theorem accept_S (s : State) : (accept s).S = s.S := rfl
@[simp] theorem accept_adlen (s : State) : (accept s).adlen = s.adlen := rfl
@[simp] theorem accept_ptlen (s : State) : (accept s).ptlen = s.ptlen := rfl
@[simp] theorem accept_present (s : State) : (accept s).present = s.present := rfl
@[simp] theorem accept_status (s : State) : (accept s).status = s.status.accepted := rfl
@[simp] theorem accept_mpc (s : State) : (accept s).mpc = s.mpc := rfl
@[simp] theorem accept_pos (s : State) : (accept s).pos = s.pos := rfl
@[simp] theorem accept_microOps (s : State) : (accept s).microOps = s.microOps := rfl
@[simp] theorem accept_mem (s : State) : (accept s).mem = s.mem := rfl
@[simp] theorem accept_params (s : State) : (accept s).params = s.params := rfl
@[simp] theorem accept_inputs (s : State) : (accept s).inputs = s.inputs := rfl
@[simp] theorem accept_reads (s : State) : (accept s).reads = s.reads := rfl

@[simp] theorem raise_S (e : ErrCode) (s : State) : (raise e s).S = s.S := rfl
@[simp] theorem raise_adlen (e : ErrCode) (s : State) : (raise e s).adlen = s.adlen := rfl
@[simp] theorem raise_ptlen (e : ErrCode) (s : State) : (raise e s).ptlen = s.ptlen := rfl
@[simp] theorem raise_present (e : ErrCode) (s : State) : (raise e s).present = s.present := rfl
@[simp] theorem raise_status (e : ErrCode) (s : State) : (raise e s).status = s.status.failed e := rfl
@[simp] theorem raise_mpc (e : ErrCode) (s : State) : (raise e s).mpc = s.mpc := rfl
@[simp] theorem raise_pos (e : ErrCode) (s : State) : (raise e s).pos = s.pos := rfl
@[simp] theorem raise_microOps (e : ErrCode) (s : State) : (raise e s).microOps = s.microOps := rfl
@[simp] theorem raise_mem (e : ErrCode) (s : State) : (raise e s).mem = s.mem := rfl
@[simp] theorem raise_params (e : ErrCode) (s : State) : (raise e s).params = s.params := rfl
@[simp] theorem raise_inputs (e : ErrCode) (s : State) : (raise e s).inputs = s.inputs := rfl
@[simp] theorem raise_reads (e : ErrCode) (s : State) : (raise e s).reads = s.reads := rfl

@[simp] theorem finish_S (s : State) : (finish s).S = s.S := rfl
@[simp] theorem finish_adlen (s : State) : (finish s).adlen = s.adlen := rfl
@[simp] theorem finish_ptlen (s : State) : (finish s).ptlen = s.ptlen := rfl
@[simp] theorem finish_present (s : State) : (finish s).present = s.present := rfl
@[simp] theorem finish_status (s : State) : (finish s).status = Status.succeeded := rfl
@[simp] theorem finish_mpc (s : State) : (finish s).mpc = .idle := rfl
@[simp] theorem finish_pos (s : State) : (finish s).pos = s.pos := rfl
@[simp] theorem finish_microOps (s : State) : (finish s).microOps = [] := rfl
@[simp] theorem finish_mem (s : State) : (finish s).mem = s.mem := rfl
@[simp] theorem finish_params (s : State) : (finish s).params = s.params := rfl
@[simp] theorem finish_inputs (s : State) : (finish s).inputs = s.inputs := rfl
@[simp] theorem finish_reads (s : State) : (finish s).reads = s.reads := rfl

@[simp] theorem writeStore_S (X : Store) (k : Nat) (v : Byte) (s : State) :
    (writeStore X k v s).S = s.S := rfl
@[simp] theorem writeStore_adlen (X : Store) (k : Nat) (v : Byte) (s : State) :
    (writeStore X k v s).adlen = s.adlen := rfl
@[simp] theorem writeStore_ptlen (X : Store) (k : Nat) (v : Byte) (s : State) :
    (writeStore X k v s).ptlen = s.ptlen := rfl
@[simp] theorem writeStore_present (X : Store) (k : Nat) (v : Byte) (s : State) :
    (writeStore X k v s).present = s.present := rfl
@[simp] theorem writeStore_status (X : Store) (k : Nat) (v : Byte) (s : State) :
    (writeStore X k v s).status = s.status := rfl
@[simp] theorem writeStore_mpc (X : Store) (k : Nat) (v : Byte) (s : State) :
    (writeStore X k v s).mpc = s.mpc := rfl
@[simp] theorem writeStore_pos (X : Store) (k : Nat) (v : Byte) (s : State) :
    (writeStore X k v s).pos = s.pos := rfl
@[simp] theorem writeStore_microOps (X : Store) (k : Nat) (v : Byte) (s : State) :
    (writeStore X k v s).microOps = s.microOps := rfl
@[simp] theorem writeStore_mem (X : Store) (k : Nat) (v : Byte) (s : State) :
    (writeStore X k v s).mem = memSet s.mem (X.base + k) v := rfl
@[simp] theorem writeStore_params (X : Store) (k : Nat) (v : Byte) (s : State) :
    (writeStore X k v s).params = s.params := rfl
@[simp] theorem writeStore_inputs (X : Store) (k : Nat) (v : Byte) (s : State) :
    (writeStore X k v s).inputs = s.inputs := rfl
@[simp] theorem writeStore_reads (X : Store) (k : Nat) (v : Byte) (s : State) :
    (writeStore X k v s).reads = s.reads := rfl

@[simp] theorem Status.accepted_busy (st : Status) : (st.accepted).busy = st.busy := rfl
@[simp] theorem Status.accepted_done (st : Status) : (st.accepted).done = false := rfl
@[simp] theorem Status.accepted_err (st : Status) : (st.accepted).err = .none := rfl
@[simp] theorem Status.failed_busy (st : Status) (e : ErrCode) : (st.failed e).busy = st.busy := rfl
@[simp] theorem Status.failed_done (st : Status) (e : ErrCode) : (st.failed e).done = true := rfl
@[simp] theorem Status.failed_err (st : Status) (e : ErrCode) : (st.failed e).err = e := rfl
@[simp] theorem Status.running_busy : Status.running.busy = true := rfl
@[simp] theorem Status.running_done : Status.running.done = false := rfl
@[simp] theorem Status.running_err : Status.running.err = .none := rfl
@[simp] theorem Status.succeeded_busy : Status.succeeded.busy = false := rfl
@[simp] theorem Status.succeeded_done : Status.succeeded.done = true := rfl
@[simp] theorem Status.succeeded_err : Status.succeeded.err = .none := rfl

end Sys2Proof.Machine
end

