-- ==== Sys2Proof/Laws/Memory.lean ====
section
/-! SUPPORT. The laws of the memory: a read after a write, and the canonical form, which every memory operation
keeps and which makes equal memories equal lists. -/

namespace Sys2Proof.Machine

theorem memGet_memSet_same (m : List Host.Cell) (a : Nat) (v : Byte) (h : Memory.wf m = true) :
    memGet (memSet m a v) a = v := by
  induction m with
  | nil => by_cases hv : v = unlistedByte <;> simp [memSet, memGet, hv]
  | cons c m ih =>
    obtain ⟨b, w⟩ := c
    simp only [Memory.wf, Bool.and_eq_true, decide_eq_true_eq, List.all_eq_true] at h
    have above : ∀ x, x ≤ b → memGet m x = unlistedByte := by
      intro x hx
      have h2 := h.1.2
      clear ih h
      induction m with
      | nil => rfl
      | cons d m ih =>
        have := h2 d (by simp)
        simp only [memGet]
        rw [if_neg (by omega)]
        exact ih (fun c hc => h2 c (by simp [hc]))
    by_cases h1 : a < b
    · by_cases hv : v = unlistedByte
      · simp [memSet, h1, hv, memGet, Nat.ne_of_lt h1, above a (by omega)]
      · simp [memSet, h1, hv, memGet]
    · by_cases h2 : a = b
      · subst h2
        by_cases hv : v = unlistedByte
        · simp [memSet, hv, above a (by omega)]
        · simp [memSet, hv, memGet]
      · simp [memSet, h1, h2, memGet, ih h.2]

theorem memGet_memSet_other (m : List Host.Cell) (a x : Nat) (v : Byte) (hx : x ≠ a) :
    memGet (memSet m a v) x = memGet m x := by
  induction m with
  | nil => by_cases hv : v = unlistedByte <;> simp [memSet, memGet, hv, hx]
  | cons c m ih =>
    obtain ⟨b, w⟩ := c
    by_cases h1 : a < b
    · by_cases hv : v = unlistedByte <;> simp [memSet, h1, hv, memGet, hx]
    · by_cases h2 : a = b
      · subst h2
        by_cases hv : v = unlistedByte <;> simp [memSet, hv, memGet, hx]
      · simp only [memSet, h1, h2, if_false, memGet, ih]

/-- What a write puts in the list: the address written, and addresses that were there. -/
theorem mem_memSet {m : List Host.Cell} {a : Nat} {v : Byte} {c : Host.Cell} (h : c ∈ memSet m a v) :
    c.1 = a ∨ c ∈ m := by
  induction m with
  | nil =>
    by_cases hv : v = unlistedByte
    · simp [memSet, hv] at h
    · simp [memSet, hv] at h; exact .inl (by rw [h])
  | cons d m ih =>
    obtain ⟨b, w⟩ := d
    simp only [memSet] at h
    split at h
    · split at h
      · exact .inr h
      · rcases List.mem_cons.mp h with rfl | h
        · exact .inl rfl
        · exact .inr h
    · split at h
      · split at h
        · exact .inr (List.mem_cons_of_mem _ h)
        · rcases List.mem_cons.mp h with rfl | h
          · exact .inl rfl
          · exact .inr (List.mem_cons_of_mem _ h)
      · rcases List.mem_cons.mp h with rfl | h
        · exact .inr (by simp)
        · rcases ih h with h | h
          · exact .inl h
          · exact .inr (List.mem_cons_of_mem _ h)

theorem memory_wf_cons {c : Host.Cell} {m : List Host.Cell} :
    Memory.wf (c :: m) = true ↔ c.2 ≠ unlistedByte ∧ (∀ d ∈ m, c.1 < d.1) ∧ Memory.wf m = true := by
  obtain ⟨a, v⟩ := c
  simp [Memory.wf, and_assoc]

/-- Every memory operation keeps the canonical form. -/
theorem memSet_wf {m : List Host.Cell} (a : Nat) (v : Byte) (h : Memory.wf m = true) :
    Memory.wf (memSet m a v) = true := by
  induction m with
  | nil =>
    by_cases hv : v = unlistedByte
    · simp [memSet, hv, Memory.wf]
    · simp [memSet, hv, Memory.wf]
  | cons d m ih =>
    obtain ⟨b, w⟩ := d
    have hd := memory_wf_cons.mp h
    simp only [memSet]
    split
    · rename_i hab
      split
      · exact h
      · rename_i hv
        refine memory_wf_cons.mpr ⟨hv, ?_, h⟩
        intro d hdm
        rcases List.mem_cons.mp hdm with rfl | hdm
        · exact hab
        · exact Nat.lt_trans hab (hd.2.1 d hdm)
    · split
      · rename_i hab
        subst hab
        split
        · exact hd.2.2
        · rename_i hv
          exact memory_wf_cons.mpr ⟨hv, hd.2.1, hd.2.2⟩
      · refine memory_wf_cons.mpr ⟨hd.1, ?_, ih hd.2.2⟩
        intro d hdm
        rcases mem_memSet hdm with h1 | h1
        · rw [h1]; omega
        · exact hd.2.1 d h1

theorem reset_mem_wf : Memory.wf State.reset.mem = true := rfl

/-- Below the first entry's address nothing is listed. -/
theorem memGet_of_below {m : List Host.Cell} {a : Nat} (h : ∀ d ∈ m, a < d.1) :
    memGet m a = unlistedByte := by
  induction m with
  | nil => rfl
  | cons d m ih =>
    obtain ⟨b, w⟩ := d
    have := h (b, w) (by simp)
    simp only [memGet]
    rw [if_neg (by simp at this; omega)]
    exact ih (fun c hc => h c (by simp [hc]))

/-- Memories in canonical form that read the same are the same list. -/
theorem memory_ext {m m' : List Host.Cell} (h : Memory.wf m = true) (h' : Memory.wf m' = true)
    (heq : ∀ a, memGet m a = memGet m' a) : m = m' := by
  induction m generalizing m' with
  | nil =>
    cases m' with
    | nil => rfl
    | cons d m' =>
      obtain ⟨b, w⟩ := d
      have hd := memory_wf_cons.mp h'
      have := heq b
      simp [memGet] at this
      exact absurd this.symm hd.1
  | cons c m ih =>
    obtain ⟨a, v⟩ := c
    have hc := memory_wf_cons.mp h
    cases m' with
    | nil =>
      have := heq a
      simp [memGet] at this
      exact absurd this hc.1
    | cons d m' =>
      obtain ⟨b, w⟩ := d
      have hd := memory_wf_cons.mp h'
      have hab : a = b := by
        rcases Nat.lt_trichotomy a b with hlt | he | hgt
        · have h1 := heq a
          rw [memGet, if_pos rfl, memGet_of_below (m := (b, w) :: m')] at h1
          · exact absurd h1 hc.1
          · intro d hdm
            rcases List.mem_cons.mp hdm with rfl | hdm
            · exact hlt
            · exact Nat.lt_trans hlt (hd.2.1 d hdm)
        · exact he
        · have h1 := heq b
          rw [memGet_of_below (m := (a, v) :: m), memGet, if_pos rfl] at h1
          · exact absurd h1.symm hd.1
          · intro d hdm
            rcases List.mem_cons.mp hdm with rfl | hdm
            · exact hgt
            · exact Nat.lt_trans hgt (hc.2.1 d hdm)
      subst hab
      have hv : v = w := by have := heq a; simpa [memGet] using this
      subst hv
      congr 1
      apply ih hc.2.2 hd.2.2
      intro x
      by_cases hx : x = a
      · subst hx
        rw [memGet_of_below hc.2.1, memGet_of_below hd.2.1]
      · have := heq x
        simpa [memGet, hx] using this

end Sys2Proof.Machine
end

