-- ==== Sys2Proof/Laws/Stores.lean ====
section
/-! SUPPORT. Accesses to the stores: what a byte string written to a store changes, and that the stores do not
overlap. -/

namespace Sys2Proof.Machine

theorem readStore_writeStore_same {s : State} (X : Store) (k : Nat) (v : Byte)
    (h : Memory.wf s.mem = true) : readStore X k (writeStore X k v s) = v := by
  simp [readStore, memGet_memSet_same _ _ _ h]

theorem store_holds_iff {X : Store} {a : Nat} :
    X.holds a = true ↔ X.base ≤ a ∧ a < X.base + X.size := by
  simp [Store.holds]

/-- The stores' address ranges are disjoint (20_memory.md R44). -/
theorem store_ranges_disjoint {X Y : Store} {j k : Nat} (hj : j < X.size) (hk : k < Y.size)
    (h : X.base + j = Y.base + k) : X = Y ∧ j = k := by
  cases X <;> cases Y <;> simp only [Store.base, Store.size] at hj hk h <;>
    first
    | exact ⟨rfl, by omega⟩
    | (exfalso; omega)

theorem memGet_writeStore_other {s : State} {X : Store} {k a : Nat} (v : Byte) (h : a ≠ X.base + k) :
    memGet (writeStore X k v s).mem a = memGet s.mem a := by
  simp [memGet_memSet_other _ _ _ _ h]

@[simp] theorem writeBytes_S (X : Store) (k : Nat) (bs : List Byte) (s : State) :
    (writeBytes X k bs s).S = s.S := by
  induction bs generalizing k s with
  | nil => rfl
  | cons b bs ih => simp [writeBytes, ih]

@[simp] theorem writeBytes_adlen (X : Store) (k : Nat) (bs : List Byte) (s : State) :
    (writeBytes X k bs s).adlen = s.adlen := by
  induction bs generalizing k s with
  | nil => rfl
  | cons b bs ih => simp [writeBytes, ih]

@[simp] theorem writeBytes_ptlen (X : Store) (k : Nat) (bs : List Byte) (s : State) :
    (writeBytes X k bs s).ptlen = s.ptlen := by
  induction bs generalizing k s with
  | nil => rfl
  | cons b bs ih => simp [writeBytes, ih]

@[simp] theorem writeBytes_present (X : Store) (k : Nat) (bs : List Byte) (s : State) :
    (writeBytes X k bs s).present = s.present := by
  induction bs generalizing k s with
  | nil => rfl
  | cons b bs ih => simp [writeBytes, ih]

@[simp] theorem writeBytes_status (X : Store) (k : Nat) (bs : List Byte) (s : State) :
    (writeBytes X k bs s).status = s.status := by
  induction bs generalizing k s with
  | nil => rfl
  | cons b bs ih => simp [writeBytes, ih]

@[simp] theorem writeBytes_mpc (X : Store) (k : Nat) (bs : List Byte) (s : State) :
    (writeBytes X k bs s).mpc = s.mpc := by
  induction bs generalizing k s with
  | nil => rfl
  | cons b bs ih => simp [writeBytes, ih]

@[simp] theorem writeBytes_pos (X : Store) (k : Nat) (bs : List Byte) (s : State) :
    (writeBytes X k bs s).pos = s.pos := by
  induction bs generalizing k s with
  | nil => rfl
  | cons b bs ih => simp [writeBytes, ih]

@[simp] theorem writeBytes_microOps (X : Store) (k : Nat) (bs : List Byte) (s : State) :
    (writeBytes X k bs s).microOps = s.microOps := by
  induction bs generalizing k s with
  | nil => rfl
  | cons b bs ih => simp [writeBytes, ih]

@[simp] theorem writeBytes_params (X : Store) (k : Nat) (bs : List Byte) (s : State) :
    (writeBytes X k bs s).params = s.params := by
  induction bs generalizing k s with
  | nil => rfl
  | cons b bs ih => simp [writeBytes, ih]

@[simp] theorem writeBytes_inputs (X : Store) (k : Nat) (bs : List Byte) (s : State) :
    (writeBytes X k bs s).inputs = s.inputs := by
  induction bs generalizing k s with
  | nil => rfl
  | cons b bs ih => simp [writeBytes, ih]

@[simp] theorem writeBytes_reads (X : Store) (k : Nat) (bs : List Byte) (s : State) :
    (writeBytes X k bs s).reads = s.reads := by
  induction bs generalizing k s with
  | nil => rfl
  | cons b bs ih => simp [writeBytes, ih]

theorem writeBytes_mem_wf (X : Store) (k : Nat) (bs : List Byte) {s : State}
    (h : Memory.wf s.mem = true) : Memory.wf (writeBytes X k bs s).mem = true := by
  induction bs generalizing k s with
  | nil => exact h
  | cons b bs ih => exact ih _ (memSet_wf _ _ h)

/-- A byte outside the bytes written reads as before. -/
theorem memGet_writeBytes_outside {X : Store} {k a : Nat} {bs : List Byte} {s : State}
    (h : a < X.base + k ∨ X.base + k + bs.length ≤ a) :
    memGet (writeBytes X k bs s).mem a = memGet s.mem a := by
  induction bs generalizing k s with
  | nil => rfl
  | cons b bs ih =>
    simp only [List.length_cons] at h
    rw [writeBytes, ih (by omega), memGet_writeStore_other _ (by omega)]

/-- Byte i of a string written to a store is read back from its place. -/
theorem memGet_writeBytes_inside {X : Store} {k i : Nat} {bs : List Byte} {s : State}
    (h : Memory.wf s.mem = true) (hi : i < bs.length) :
    memGet (writeBytes X k bs s).mem (X.base + k + i) = bs[i] := by
  induction bs generalizing k i s with
  | nil => simp at hi
  | cons b bs ih =>
    rw [writeBytes]
    cases i with
    | zero =>
      rw [memGet_writeBytes_outside (by omega)]
      simpa [readStore] using readStore_writeStore_same X k b h
    | succ i =>
      have := ih (k := k + 1) (i := i) (s := writeStore X k b s) (memSet_wf _ _ h) (by simpa using hi)
      simpa [Nat.add_assoc, Nat.add_comm 1 i] using this

/-- What a write leaves in the list: entries at the addresses written, and entries that were there. -/
theorem mem_writeBytes {X : Store} {k : Nat} {bs : List Byte} {s : State} {c : Host.Cell}
    (h : c ∈ (writeBytes X k bs s).mem) :
    (X.base + k ≤ c.1 ∧ c.1 < X.base + k + bs.length) ∨ c ∈ s.mem := by
  induction bs generalizing k s with
  | nil => exact .inr h
  | cons b bs ih =>
    rcases ih h with h1 | h1
    · simp only [List.length_cons]; omega
    · rcases mem_memSet h1 with h2 | h2
      · simp only [List.length_cons]; omega
      · exact .inr h2

@[simp] theorem length_bytes8 (w : Word) : (bytes8 w).length = 8 := rfl

@[simp] theorem length_readBytes (X : Store) (k n : Nat) (s : State) : (readBytes X k n s).length = n := by
  simp [readBytes]

/-- Reads of a store depend on the memory alone. -/
theorem readStore_congr {s t : State} (h : t.mem = s.mem) (X : Store) (k : Nat) :
    readStore X k t = readStore X k s := by
  simp [readStore, h]

theorem readBytes_congr {s t : State} {X : Store} {k n : Nat}
    (h : ∀ i, i < n → readStore X (k + i) t = readStore X (k + i) s) :
    readBytes X k n t = readBytes X k n s := by
  simp only [readBytes]
  exact List.map_congr_left (fun i hi => h i (List.mem_range.mp hi))

end Sys2Proof.Machine
end

