-- ==== Sys2Proof/Laws/MicroOps.lean ====
section
/-! SUPPORT. What a micro-operation can change, said once: `S` and the bytes of `CT` and `TAG`, nothing else;
and on what it depends: not on `STATUS`, the sequencer or the host's side. -/

namespace Sys2Proof.Machine

@[simp] theorem microOp_run_adlen (o : MicroOp) (s : State) : (o.run s).adlen = s.adlen := by
  cases o <;> simp [MicroOp.run, mLoadInit, mPerm, mKeyX34, mAbsAd, mDsep, mAbsPt, mEmit, mEmitTail, mKeyX12,
    mTagOut, mDiscard]

@[simp] theorem microOp_run_ptlen (o : MicroOp) (s : State) : (o.run s).ptlen = s.ptlen := by
  cases o <;> simp [MicroOp.run, mLoadInit, mPerm, mKeyX34, mAbsAd, mDsep, mAbsPt, mEmit, mEmitTail, mKeyX12,
    mTagOut, mDiscard]

@[simp] theorem microOp_run_present (o : MicroOp) (s : State) : (o.run s).present = s.present := by
  cases o <;> simp [MicroOp.run, mLoadInit, mPerm, mKeyX34, mAbsAd, mDsep, mAbsPt, mEmit, mEmitTail, mKeyX12,
    mTagOut, mDiscard]

@[simp] theorem microOp_run_status (o : MicroOp) (s : State) : (o.run s).status = s.status := by
  cases o <;> simp [MicroOp.run, mLoadInit, mPerm, mKeyX34, mAbsAd, mDsep, mAbsPt, mEmit, mEmitTail, mKeyX12,
    mTagOut, mDiscard]

@[simp] theorem microOp_run_mpc (o : MicroOp) (s : State) : (o.run s).mpc = s.mpc := by
  cases o <;> simp [MicroOp.run, mLoadInit, mPerm, mKeyX34, mAbsAd, mDsep, mAbsPt, mEmit, mEmitTail, mKeyX12,
    mTagOut, mDiscard]

@[simp] theorem microOp_run_pos (o : MicroOp) (s : State) : (o.run s).pos = s.pos := by
  cases o <;> simp [MicroOp.run, mLoadInit, mPerm, mKeyX34, mAbsAd, mDsep, mAbsPt, mEmit, mEmitTail, mKeyX12,
    mTagOut, mDiscard]

@[simp] theorem microOp_run_microOps (o : MicroOp) (s : State) : (o.run s).microOps = s.microOps := by
  cases o <;> simp [MicroOp.run, mLoadInit, mPerm, mKeyX34, mAbsAd, mDsep, mAbsPt, mEmit, mEmitTail, mKeyX12,
    mTagOut, mDiscard]

@[simp] theorem microOp_run_params (o : MicroOp) (s : State) : (o.run s).params = s.params := by
  cases o <;> simp [MicroOp.run, mLoadInit, mPerm, mKeyX34, mAbsAd, mDsep, mAbsPt, mEmit, mEmitTail, mKeyX12,
    mTagOut, mDiscard]

@[simp] theorem microOp_run_inputs (o : MicroOp) (s : State) : (o.run s).inputs = s.inputs := by
  cases o <;> simp [MicroOp.run, mLoadInit, mPerm, mKeyX34, mAbsAd, mDsep, mAbsPt, mEmit, mEmitTail, mKeyX12,
    mTagOut, mDiscard]

@[simp] theorem microOp_run_reads (o : MicroOp) (s : State) : (o.run s).reads = s.reads := by
  cases o <;> simp [MicroOp.run, mLoadInit, mPerm, mKeyX34, mAbsAd, mDsep, mAbsPt, mEmit, mEmitTail, mKeyX12,
    mTagOut, mDiscard]

/-- The local addresses a micro-operation may store to (20_memory.md R50): a full block and the tail in `CT`,
the tag. -/
def opStores (o : MicroOp) (s : State) (a : Nat) : Prop :=
  match o with
  | .emit j => Store.ct.base + 8 * j ≤ a ∧ a < Store.ct.base + 8 * j + 8
  | .emitTail => Store.ct.base + 8 * (ptBlocks s - 1) ≤ a ∧
      a < Store.ct.base + 8 * (ptBlocks s - 1) + tailLength s.ptlen.toNat
  | .tagOut => Store.tag.base ≤ a ∧ a < Store.tag.base + 16
  | _ => False

theorem tailLength_lt (n : Nat) : tailLength n < 8 := Nat.mod_lt _ (by decide)

@[simp] theorem length_tagBytes (s : State) : (tagBytes s).length = 16 := by
  simp [tagBytes, Config.keyLen]

/-- The micro-operations that store to no memory. -/
theorem microOp_run_mem {o : MicroOp} (s : State) (h1 : ∀ j, o ≠ .emit j) (h2 : o ≠ .emitTail)
    (h3 : o ≠ .tagOut) : (o.run s).mem = s.mem := by
  cases o with
  | emit j => exact absurd rfl (h1 j)
  | emitTail => exact absurd rfl h2
  | tagOut => exact absurd rfl h3
  | _ => simp [MicroOp.run, mLoadInit, mPerm, mKeyX34, mAbsAd, mDsep, mAbsPt, mKeyX12, mDiscard]

/-- Every byte a micro-operation does not store to reads as before. -/
theorem microOp_run_memGet {o : MicroOp} {s : State} {a : Nat} (h : ¬ opStores o s a) :
    memGet (o.run s).mem a = memGet s.mem a := by
  cases o with
  | emit j =>
    refine memGet_writeBytes_outside ?_
    simp only [opStores, length_bytes8] at *
    omega
  | emitTail =>
    refine memGet_writeBytes_outside ?_
    have := tailLength_lt s.ptlen.toNat
    simp only [opStores, List.length_take, length_bytes8] at *
    omega
  | tagOut =>
    refine memGet_writeBytes_outside ?_
    simp only [opStores, length_tagBytes] at *
    omega
  | _ => rw [microOp_run_mem _ (by simp) (by simp) (by simp)]

/-- A micro-operation keeps the canonical form of the memory. -/
theorem microOp_run_mem_wf (o : MicroOp) {s : State} (h : Memory.wf s.mem = true) :
    Memory.wf (o.run s).mem = true := by
  cases o with
  | emit j => exact writeBytes_mem_wf _ _ _ h
  | emitTail => exact writeBytes_mem_wf _ _ _ h
  | tagOut => exact writeBytes_mem_wf _ _ _ h
  | _ => rwa [microOp_run_mem _ (by simp) (by simp) (by simp)]

/-- What a micro-operation leaves in the list: entries at the addresses it stores to, and entries that were
there. -/
theorem mem_microOp_run {o : MicroOp} {s : State} {c : Host.Cell} (h : c ∈ (o.run s).mem) :
    opStores o s c.1 ∨ c ∈ s.mem := by
  cases o with
  | emit j =>
    rcases mem_writeBytes h with h | h
    · refine .inl ?_
      simp only [opStores, length_bytes8] at *
      omega
    · exact .inr h
  | emitTail =>
    have := tailLength_lt s.ptlen.toNat
    rcases mem_writeBytes h with h | h
    · refine .inl ?_
      simp only [opStores, List.length_take, length_bytes8] at *
      omega
    · exact .inr h
  | tagOut =>
    rcases mem_writeBytes h with h | h
    · refine .inl ?_
      simp only [opStores, length_tagBytes] at *
      omega
    · exact .inr h
  | _ =>
    rw [microOp_run_mem _ (by simp) (by simp) (by simp)] at h
    exact .inr h

theorem writeBytes_setStatus (X : Store) (k : Nat) (bs : List Byte) (s : State) (st : Status) :
    writeBytes X k bs (s.setStatus st) = (writeBytes X k bs s).setStatus st := by
  induction bs generalizing k s with
  | nil => rfl
  | cons b bs ih => rw [writeBytes, writeBytes, ← ih]; rfl

theorem writeBytes_setSequencer (X : Store) (k : Nat) (bs : List Byte) (s : State) (m : Mpc) (p : Nat)
    (l : List MicroOp) :
    writeBytes X k bs (s.setSequencer m p l) = (writeBytes X k bs s).setSequencer m p l := by
  induction bs generalizing k s with
  | nil => rfl
  | cons b bs ih => rw [writeBytes, writeBytes, ← ih]; rfl

theorem writeBytes_setInputs (X : Store) (k : Nat) (bs : List Byte) (s : State) (l : List HostAction) :
    writeBytes X k bs (s.setInputs l) = (writeBytes X k bs s).setInputs l := by
  induction bs generalizing k s with
  | nil => rfl
  | cons b bs ih => rw [writeBytes, writeBytes, ← ih]; rfl

theorem writeBytes_setReads (X : Store) (k : Nat) (bs : List Byte) (s : State) (l : List Byte) :
    writeBytes X k bs (s.setReads l) = (writeBytes X k bs s).setReads l := by
  induction bs generalizing k s with
  | nil => rfl
  | cons b bs ih => rw [writeBytes, writeBytes, ← ih]; rfl

/-- A micro-operation does not look at `STATUS`. -/
theorem microOp_run_setStatus (o : MicroOp) (s : State) (st : Status) :
    o.run (s.setStatus st) = (o.run s).setStatus st := by
  cases o with
  | emit j => exact writeBytes_setStatus _ _ _ _ _
  | emitTail => exact writeBytes_setStatus _ _ _ _ _
  | tagOut => exact writeBytes_setStatus _ _ _ _ _
  | _ => rfl

/-- A micro-operation does not look at the sequencer. -/
theorem microOp_run_setSequencer (o : MicroOp) (s : State) (m : Mpc) (p : Nat) (l : List MicroOp) :
    o.run (s.setSequencer m p l) = (o.run s).setSequencer m p l := by
  cases o with
  | emit j => exact writeBytes_setSequencer _ _ _ _ _ _ _
  | emitTail => exact writeBytes_setSequencer _ _ _ _ _ _ _
  | tagOut => exact writeBytes_setSequencer _ _ _ _ _ _ _
  | _ => rfl

/-- A micro-operation does not look at what the host does next. -/
theorem microOp_run_setInputs (o : MicroOp) (s : State) (l : List HostAction) :
    o.run (s.setInputs l) = (o.run s).setInputs l := by
  cases o with
  | emit j => exact writeBytes_setInputs _ _ _ _ _
  | emitTail => exact writeBytes_setInputs _ _ _ _ _
  | tagOut => exact writeBytes_setInputs _ _ _ _ _
  | _ => rfl

/-- A micro-operation does not look at what the host has read. -/
theorem microOp_run_setReads (o : MicroOp) (s : State) (l : List Byte) :
    o.run (s.setReads l) = (o.run s).setReads l := by
  cases o with
  | emit j => exact writeBytes_setReads _ _ _ _ _
  | emitTail => exact writeBytes_setReads _ _ _ _ _
  | tagOut => exact writeBytes_setReads _ _ _ _ _
  | _ => rfl

/-- A list of micro-operations, one after another (42_control.md R172). -/
def runOps : List MicroOp → State → State
  | [], s => s
  | o :: l, s => runOps l (o.run s)

theorem runOps_append (l l' : List MicroOp) (s : State) : runOps (l ++ l') s = runOps l' (runOps l s) := by
  induction l generalizing s with
  | nil => rfl
  | cons o l ih => exact ih _

theorem runOps_induction {P : State → Prop} {l : List MicroOp}
    (hop : ∀ o ∈ l, ∀ s, P s → P (o.run s)) {s : State} (h : P s) : P (runOps l s) := by
  induction l generalizing s with
  | nil => exact h
  | cons o l ih =>
    exact ih (fun o' ho' => hop o' (List.mem_cons_of_mem _ ho')) (hop o List.mem_cons_self _ h)

theorem adOps_succ (n : Nat) : adOps (n + 1) = adOps n ++ [.absAd n, .perm .r6] := by
  simp [adOps, List.range_succ]

theorem ptOps_succ (n : Nat) : ptOps (n + 1) = ptOps n ++ [.absPt n, .emit n, .perm .r6] := by
  simp [ptOps, List.range_succ]

theorem runOps_adOps (n : Nat) (s : State) : runOps (adOps n) s = absorbAd n s := by
  induction n with
  | zero => rfl
  | succ n ih => rw [adOps_succ, runOps_append, ih]; rfl

theorem runOps_ptOps (n : Nat) (s : State) : runOps (ptOps n) s = encryptBlocks n s := by
  induction n with
  | zero => rfl
  | succ n ih => rw [ptOps_succ, runOps_append, ih]; rfl

@[simp] theorem runOps_adlen (l : List MicroOp) (s : State) : (runOps l s).adlen = s.adlen :=
  runOps_induction (P := fun t => t.adlen = s.adlen) (fun o _ t h => by simp [h]) rfl

@[simp] theorem runOps_ptlen (l : List MicroOp) (s : State) : (runOps l s).ptlen = s.ptlen :=
  runOps_induction (P := fun t => t.ptlen = s.ptlen) (fun o _ t h => by simp [h]) rfl

@[simp] theorem runOps_present (l : List MicroOp) (s : State) : (runOps l s).present = s.present :=
  runOps_induction (P := fun t => t.present = s.present) (fun o _ t h => by simp [h]) rfl

@[simp] theorem runOps_status (l : List MicroOp) (s : State) : (runOps l s).status = s.status :=
  runOps_induction (P := fun t => t.status = s.status) (fun o _ t h => by simp [h]) rfl

@[simp] theorem runOps_mpc (l : List MicroOp) (s : State) : (runOps l s).mpc = s.mpc :=
  runOps_induction (P := fun t => t.mpc = s.mpc) (fun o _ t h => by simp [h]) rfl

@[simp] theorem runOps_pos (l : List MicroOp) (s : State) : (runOps l s).pos = s.pos :=
  runOps_induction (P := fun t => t.pos = s.pos) (fun o _ t h => by simp [h]) rfl

@[simp] theorem runOps_microOps (l : List MicroOp) (s : State) : (runOps l s).microOps = s.microOps :=
  runOps_induction (P := fun t => t.microOps = s.microOps) (fun o _ t h => by simp [h]) rfl

@[simp] theorem runOps_params (l : List MicroOp) (s : State) : (runOps l s).params = s.params :=
  runOps_induction (P := fun t => t.params = s.params) (fun o _ t h => by simp [h]) rfl

@[simp] theorem runOps_inputs (l : List MicroOp) (s : State) : (runOps l s).inputs = s.inputs :=
  runOps_induction (P := fun t => t.inputs = s.inputs) (fun o _ t h => by simp [h]) rfl

@[simp] theorem runOps_reads (l : List MicroOp) (s : State) : (runOps l s).reads = s.reads :=
  runOps_induction (P := fun t => t.reads = s.reads) (fun o _ t h => by simp [h]) rfl

/-- The four phases are the micro-operation list of `ENCRYPT`, one after another: the order of 42_control.md
R172 is the order of 41_aead_orchestrator.md R143. -/
theorem encryptPhases_eq_runOps (s : State) :
    encryptPhases s = runOps (encryptOps (adBlocks s) (ptBlocks s)) s := by
  have hs : ∀ t : State, t.adlen = s.adlen → adBlocks t = adBlocks s := fun t h => by simp [adBlocks, h]
  have ht : ∀ t : State, t.ptlen = s.ptlen → ptBlocks t = ptBlocks s := fun t h => by simp [ptBlocks, h]
  have h1 : phaseInit s = runOps [.loadInit, .perm .r12, .keyX34] s := rfl
  have h2 : phaseAd (phaseInit s) = runOps [.dsep] (runOps (adOps (adBlocks s)) (phaseInit s)) := by
    rw [runOps_adOps, phaseAd, hs (phaseInit s) (by rw [h1, runOps_adlen])]; rfl
  have h3 : (phaseAd (phaseInit s)).ptlen = s.ptlen := by rw [h2, h1]; simp
  have h4 : ∀ t : State, ptBlocks t = ptBlocks s → phasePt t
      = runOps [.absPt (ptBlocks s - 1), .emitTail] (runOps (ptOps (ptBlocks s - 1)) t) := by
    intro t h
    rw [runOps_ptOps, phasePt, h]; rfl
  have h5 : ∀ t : State, phaseFinal t = runOps [.keyX12, .perm .r12, .tagOut, .discard] t := fun _ => rfl
  rw [encryptPhases, h5, h4 _ (ht _ h3), h2, h1]
  simp only [encryptOps, runOps_append]
  rfl

end Sys2Proof.Machine
end

