-- ==== Sys2Proof/Laws/Exec.lean ====
section
/-! SUPPORT. What a command can do, said once: report the error its tests find, or run its micro-operations and
end. -/

namespace Sys2Proof.Machine

/-- Every command is its tests, then its micro-operation list run to the end (42_control.md R170 to R172). -/
theorem exec_eq (i : Instr) (s : State) :
    exec i s = .next (match commandError i s with
      | some e => raise e s
      | none => finish (runOps (opsOf i s) s)) := by
  cases i with
  | perm6 => rfl
  | perm8 => rfl
  | perm12 => rfl
  | encrypt =>
    simp only [exec, execEncrypt, commandError, opsOf, ← encryptPhases_eq_runOps]
    cases encryptError s <;> rfl

theorem exec_of_error {i : Instr} {s : State} {e : ErrCode} (h : commandError i s = some e) :
    exec i s = .next (raise e s) := by
  rw [exec_eq, h]

theorem exec_of_passed {i : Instr} {s : State} (h : commandError i s = none) :
    exec i s = .next (finish (runOps (opsOf i s) s)) := by
  rw [exec_eq, h]

/-- The two ways a command ends. -/
theorem exec_cases {i : Instr} {s t : State} (h : exec i s = .next t) :
    (∃ e, commandError i s = some e ∧ t = raise e s) ∨
    (commandError i s = none ∧ t = finish (runOps (opsOf i s) s)) := by
  rw [exec_eq] at h
  cases hc : commandError i s with
  | some e => rw [hc] at h; injection h with h; exact .inl ⟨e, rfl, h.symm⟩
  | none => rw [hc] at h; injection h with h; exact .inr ⟨rfl, h.symm⟩

/-- The errors a command can be rejected with, and why (60_exceptions.md R201, R202, R205). -/
theorem commandError_cases {i : Instr} {s : State} {e : ErrCode} (h : commandError i s = some e) :
    i = .encrypt ∧
    ((e = .missingBuffer ∧ s.present ≠ 0b111111#6) ∨
     (e = .lengthOutOfRange ∧ s.present = 0b111111#6 ∧
       (Config.maxLen < s.adlen.toNat ∨ Config.maxLen < s.ptlen.toNat))) := by
  cases i with
  | encrypt =>
    refine ⟨rfl, ?_⟩
    simp only [commandError, encryptError] at h
    split at h
    · rename_i hp
      injection h with h
      exact .inl ⟨h.symm, hp⟩
    · rename_i hp
      split at h
      · rename_i hl
        injection h with h
        exact .inr ⟨h.symm, Decidable.not_not.mp hp, hl⟩
      · cases h
  | _ => cases h

/-- What a command that is not rejected may rely on. -/
theorem commandError_encrypt_none {s : State} (h : commandError .encrypt s = none) :
    s.present = 0b111111#6 ∧ s.adlen.toNat ≤ 254 ∧ s.ptlen.toNat ≤ 254 := by
  simp only [commandError, encryptError] at h
  split at h
  · cases h
  · rename_i hp
    split at h
    · cases h
    · rename_i hl
      simp only [Config.maxLen] at hl
      exact ⟨Decidable.not_not.mp hp, by omega, by omega⟩

theorem commandError_encrypt_of {s : State} (hp : s.present = 0b111111#6) (ha : s.adlen.toNat ≤ 254)
    (ht : s.ptlen.toNat ≤ 254) : commandError .encrypt s = none := by
  have hl : ¬ (Config.maxLen < s.adlen.toNat ∨ Config.maxLen < s.ptlen.toNat) := by
    simp only [Config.maxLen]
    omega
  simp only [commandError, encryptError]
  rw [if_neg (not_not_intro hp), if_neg hl]

/-- The tests and the list of a command depend on the lengths and `PRESENT` alone. -/
theorem commandError_congr {i : Instr} {s t : State} (hp : t.present = s.present) (ha : t.adlen = s.adlen)
    (ht : t.ptlen = s.ptlen) : commandError i t = commandError i s := by
  cases i <;> simp [commandError, encryptError, hp, ha, ht]

theorem opsOf_congr {i : Instr} {s t : State} (ha : t.adlen = s.adlen) (ht : t.ptlen = s.ptlen) :
    opsOf i t = opsOf i s := by
  cases i <;> simp [opsOf, adBlocks, ptBlocks, ha, ht]

/-- The block of plaintext a full-block emission is for: `MPC` never reaches one past the data. -/
theorem emit_mem_ptOps {n j : Nat} (h : MicroOp.emit j ∈ ptOps n) : j < n := by
  simp only [ptOps, List.mem_flatMap, List.mem_range] at h
  obtain ⟨k, hk, h⟩ := h
  simp at h
  omega

theorem emit_mem_opsOf {i : Instr} {s : State} {j : Nat} (h : MicroOp.emit j ∈ opsOf i s) :
    i = .encrypt ∧ 8 * j + 8 ≤ s.ptlen.toNat := by
  cases i with
  | encrypt =>
    have hj : j < ptBlocks s - 1 := by
      simp only [opsOf, encryptOps, List.mem_append] at h
      rcases h with (((h | h) | h) | h) | h
      · simp at h
      · simp [adOps] at h
      · simp at h
      · exact emit_mem_ptOps h
      · simp at h
    simp only [ptBlocks, blockCount, Config.rate] at hj
    exact ⟨rfl, by omega⟩
  | _ => simp [opsOf] at h

/-- The bytes a micro-operation of a command's list stores to are the first `PTLEN` bytes of `CT` and the
bytes of `TAG` (41_aead_orchestrator.md R139 (c), R143). -/
theorem opStores_of_mem {i : Instr} {s t : State} {o : MicroOp} {a : Nat} (ho : o ∈ opsOf i s)
    (hl : t.ptlen = s.ptlen) (h : opStores o t a) :
    (Store.ct.base ≤ a ∧ a < Store.ct.base + s.ptlen.toNat) ∨
    (Store.tag.base ≤ a ∧ a < Store.tag.base + 16) := by
  cases o with
  | emit j =>
    have := (emit_mem_opsOf ho).2
    simp only [opStores] at h
    omega
  | emitTail =>
    simp only [opStores, ptBlocks, hl, blockCount, tailLength, Config.rate] at h
    omega
  | tagOut => exact .inr h
  | _ => exact absurd h id

end Sys2Proof.Machine
end

