-- ==== Sys2Proof/Laws/PerInstr.lean ====
section
/-! SUPPORT. Statements about every command as syntax, one lemma per constructor. -/

namespace Sys2Proof.Laws

/-- The fields of a command are those of a legal byte (30_encoding.md R70, R73), and splitting its byte gives
them back. -/
def FieldsLegal.Statement (i : Instr) : Prop :=
  (fieldsOf i).wellFormed = true ∧ fieldsOfByte (byteOfFields (fieldsOf i)) = fieldsOf i

theorem FieldsLegal.perm6 : FieldsLegal.Statement .perm6 := by unfold FieldsLegal.Statement; decide

theorem FieldsLegal.perm8 : FieldsLegal.Statement .perm8 := by unfold FieldsLegal.Statement; decide

theorem FieldsLegal.perm12 : FieldsLegal.Statement .perm12 := by unfold FieldsLegal.Statement; decide

theorem FieldsLegal.encrypt : FieldsLegal.Statement .encrypt := by unfold FieldsLegal.Statement; decide

end Sys2Proof.Laws
end

