-- ==== Sys2Proof/Laws/Script.lean ====
section
/-! SUPPORT. The small lemmas of a script line's value (30_encoding.md R76, R77). -/

namespace Sys2Proof.Machine

/-- What the reads of a line have added to `reads` is what the line's value is made of. -/
theorem bytesReadSince_of_append {s t : State} {r : List Byte} (h : t.reads = s.reads ++ r) :
    bytesReadSince s t = r := by
  simp [bytesReadSince, h]

theorem bytesReadSince_setInputs (s t : State) (l : List HostAction) :
    bytesReadSince (s.setInputs l) t = bytesReadSince s t := rfl

/-- A poll's result is its last byte, where that one says idle. -/
theorem pollResult_concat (r : List Byte) (v : Byte) :
    pollResult (r ++ [v]) = if v.getLsbD 0 then none else some v := by
  rw [pollResult, List.getLast?_concat]
  show (if !v.getLsbD 0 then some v else none) = _
  cases v.getLsbD 0 <;> rfl

/-- A poll whose last byte says busy is not over and has no result. -/
theorem pollResult_eq_none_of_busy {r : List Byte} {v : Byte} (h : v.getLsbD 0 = true) :
    pollResult (r ++ [v]) = none := by
  rw [pollResult_concat, if_pos h]

theorem lineValue_rd64 {i : Fin 5} {r : List Byte} (h : r.length = 8) :
    lineValue (.rd64 i) r = some (.word (be64 r)) := by
  simp [lineValue, h]

theorem lineValue_rds {a : HostAddr} {n : Nat} {r : List Byte} (h : r.length = n) :
    lineValue (.rds a n) r = some (.bytes r) := by
  simp [lineValue, h]

/-- A line's expansion has as many bus actions as the string it writes or reads has bytes. -/
theorem length_writeString (a : HostAddr) (bs : List Byte) : (writeString a bs).length = bs.length := by
  induction bs generalizing a with
  | nil => rfl
  | cons b bs ih => simp [writeString, ih]

theorem length_readString (a : HostAddr) (n : Nat) : (readString a n).length = n := by
  induction n generalizing a with
  | zero => rfl
  | succ n ih => simp [readString, ih]

end Sys2Proof.Machine
end

