-- ==== Sys2Proof/Laws/Step.lean ====
section
/-! SUPPORT. What a turn of the block, a submission and a step can do, said once each. -/

namespace Sys2Proof.Machine

/-- The ways a turn of the block goes (42_control.md R172). -/
theorem blockTurn_cases (s : State) :
    (s.mpc = .idle ∧ blockTurn s = s) ∨
    (∃ n, s.mpc = .entry n ∧ s.microOps[n]? = none ∧ blockTurn s = finish s) ∨
    (∃ n r, s.mpc = .entry n ∧ s.microOps[n]? = some (.perm r) ∧ roundCount r < s.pos + 1 ∧
      blockTurn s = leave n (permRound r s)) ∨
    (∃ n r, s.mpc = .entry n ∧ s.microOps[n]? = some (.perm r) ∧ s.pos + 1 ≤ roundCount r ∧
      blockTurn s = permRound r s) ∨
    (∃ n o, s.mpc = .entry n ∧ s.microOps[n]? = some o ∧ (∀ r, o ≠ .perm r) ∧
      blockTurn s = leave n (o.run s)) := by
  cases hm : s.mpc with
  | idle => exact .inl ⟨rfl, by simp [blockTurn, hm]⟩
  | entry n =>
    cases ho : s.microOps[n]? with
    | none => exact .inr (.inl ⟨n, rfl, ho, by simp [blockTurn, hm, ho]⟩)
    | some o =>
      cases o with
      | perm r =>
        by_cases hr : roundCount r < s.pos + 1
        · exact .inr (.inr (.inl ⟨n, r, rfl, ho, hr, by simp [blockTurn, hm, ho, hr]⟩))
        · exact .inr (.inr (.inr (.inl ⟨n, r, rfl, ho, Nat.le_of_not_lt hr,
            by simp [blockTurn, hm, ho, hr]⟩)))
      | _ => exact .inr (.inr (.inr (.inr ⟨n, _, rfl, ho, by simp, by simp [blockTurn, hm, ho]⟩)))

/-- The two ways an entry of the list is left. -/
theorem leave_cases (n : Nat) (s : State) :
    (n + 1 < s.microOps.length ∧ leave n s = goTo (n + 1) s) ∨
    (s.microOps.length ≤ n + 1 ∧ leave n s = finish s) := by
  by_cases h : n + 1 < s.microOps.length
  · exact .inl ⟨h, by simp [leave, h]⟩
  · exact .inr ⟨Nat.le_of_not_lt h, by simp [leave, h]⟩

/-- A submission to a block that takes it: an illegal byte, a command rejected, a command executed in one
event, or a command started. -/
theorem submit_cases {c : Byte} {s t : State} (h : submit c s = .next t) :
    (∃ w, decode c = .illegal w ∧ t = raise .illegalCommand (accept s)) ∨
    (∃ i e, decode c = .command i ∧ commandError i s = some e ∧ t = raise e (accept s)) ∨
    (∃ i, decode c = .command i ∧ commandError i s = none ∧ s.params.timing = .atomic ∧
      t = finish (runOps (opsOf i s) (accept s))) ∨
    (∃ i, decode c = .command i ∧ commandError i s = none ∧ s.params.timing = .timed ∧
      t = start i (accept s)) := by
  have hc : ∀ i, commandError i (accept s) = commandError i s := fun i => commandError_congr rfl rfl rfl
  have hop : ∀ i, opsOf i (accept s) = opsOf i s := fun i => opsOf_congr rfl rfl
  unfold submit at h
  cases hd : decode c with
  | illegal w =>
    rw [hd] at h
    injection h with h
    exact .inl ⟨w, rfl, h.symm⟩
  | command i =>
    rw [hd] at h
    refine .inr ?_
    cases ht : s.params.timing with
    | atomic =>
      simp only [ht] at h
      rcases exec_cases h with ⟨e, he, rfl⟩ | ⟨he, rfl⟩
      · exact .inl ⟨i, e, rfl, by rw [← hc, he], rfl⟩
      · exact .inr (.inl ⟨i, rfl, by rw [← hc, he], rfl, by rw [hop]⟩)
    | timed =>
      simp only [ht, acceptTimed] at h
      injection h with h
      cases he : commandError i (accept s) with
      | some e => rw [he] at h; exact .inl ⟨i, e, rfl, by rw [← hc, he], h.symm⟩
      | none => rw [he] at h; exact .inr (.inr ⟨i, rfl, by rw [← hc, he], rfl, h.symm⟩)

/-- The ways a step goes. -/
theorem step_cases {s t : State} (h : step s = .next t) :
    (s.inputs = [] ∧ t = blockTurn s) ∨
    (∃ rest, s.inputs = .wait :: rest ∧ t = blockTurn (s.setInputs rest)) ∨
    (∃ rest, s.inputs = .reset :: rest ∧ t = resetEvent (s.setInputs rest)) ∨
    (∃ rest, s.inputs = .poll :: rest ∧ t = pollOnce (s.setInputs rest)) ∨
    (∃ a rest, s.inputs = .read a :: rest ∧ t = recordRead a (s.setInputs rest)) ∨
    (∃ a v rest, s.inputs = .write a v :: rest ∧ s.status.busy = true ∧ t = s.setInputs rest) ∨
    (∃ a v rest, s.inputs = .write a v :: rest ∧ s.status.busy = false ∧ itemAt a = .cmd ∧
      submit v (s.setInputs rest) = .next t) ∨
    (∃ a v rest, s.inputs = .write a v :: rest ∧ s.status.busy = false ∧ itemAt a ≠ .cmd ∧
      t = writeItem (itemAt a) v (s.setInputs rest)) := by
  unfold step at h
  cases hi : s.inputs with
  | nil =>
    rw [hi] at h
    injection h with h
    exact .inl ⟨rfl, h.symm⟩
  | cons act rest =>
    rw [hi] at h
    refine .inr ?_
    cases act with
    | wait => injection h with h; exact .inl ⟨rest, rfl, h.symm⟩
    | reset => injection h with h; exact .inr (.inl ⟨rest, rfl, h.symm⟩)
    | poll => injection h with h; exact .inr (.inr (.inl ⟨rest, rfl, h.symm⟩))
    | read a => injection h with h; exact .inr (.inr (.inr (.inl ⟨a, rest, rfl, h.symm⟩)))
    | write a v =>
      refine .inr (.inr (.inr (.inr ?_)))
      have hb' : (s.setInputs rest).status = s.status := rfl
      have h : hostWrite a v (s.setInputs rest) = .next t := h
      by_cases hb : s.status.busy = true
      · rw [hostWrite, if_pos (hb'.symm ▸ hb)] at h
        injection h with h
        exact .inl ⟨a, v, rest, rfl, hb, h.symm⟩
      · rw [hostWrite, if_neg (hb'.symm ▸ hb)] at h
        by_cases hc : itemAt a = .cmd
        · rw [if_pos hc] at h
          exact .inr (.inl ⟨a, v, rest, rfl, by simpa using hb, hc, h⟩)
        · rw [if_neg hc] at h
          injection h with h
          exact .inr (.inr ⟨a, v, rest, rfl, by simpa using hb, hc, h.symm⟩)

/-- The address map sends one address to `CMD` (20_memory.md R44). -/
theorem itemAt_eq_cmd {a : HostAddr} : itemAt a = .cmd ↔ a = cmdAddr := by
  revert a
  decide +kernel

/-- Every store byte the map gives lies in its store. -/
theorem itemAt_store {a : HostAddr} {X : Store} {k : Nat} (h : itemAt a = .store X k) :
    k < X.size ∧ X.base + k = a.toNat := by
  unfold itemAt at h
  split at h
  · rename_i Y hY
    have hh := List.find?_some hY
    simp only [Store.holds, Bool.and_eq_true, decide_eq_true_eq] at hh
    injection h with h1 h2
    subst h1
    subst h2
    omega
  · unfold lowItem at h
    split at h
    · cases h
    · repeat' (split at h; · cases h)
      cases h

/-- A host read (20_memory.md R45): the step that takes it from the line changes nothing of the block. -/
theorem step_read {s : State} {a : HostAddr} {rest : List HostAction} (h : s.inputs = .read a :: rest) :
    step s = .next { s with inputs := rest, reads := s.reads ++ [hostRead a s] } := by
  rw [step, h]
  rfl

/-- A submission to an idle block (42_control.md R170). -/
theorem step_submit {s : State} {c : Byte} {rest : List HostAction}
    (h : s.inputs = .write cmdAddr c :: rest) (hb : s.status.busy = false) :
    step s = submit c (s.setInputs rest) := by
  have hc : itemAt cmdAddr = .cmd := itemAt_eq_cmd.mpr rfl
  simp [step, h, perform, hostWrite, hb, hc]

/-- A command the tests reject is rejected alike in both views (42_control.md R172, 60_exceptions.md R206). -/
theorem submit_of_error {s : State} {c : Byte} {i : Instr} {e : ErrCode} (hd : decode c = .command i)
    (he : commandError i s = some e) : submit c s = .next (raise e (accept s)) := by
  have ha : commandError i (accept s) = some e := (commandError_congr rfl rfl rfl).trans he
  rw [submit, hd]
  cases s.params.timing with
  | atomic => exact exec_of_error ha
  | timed => show Host.Outcome.next (acceptTimed i (accept s)) = _; rw [acceptTimed, ha]

/-- A run of steps is one step and then the rest. -/
theorem core_run_succ {M : Host.Core} {n : Nat} {s t : M.State} (h : M.step s = .next t) :
    M.run (n + 1) s = M.run n t := by
  rw [Host.Core.run, h]

theorem run_succ {n : Nat} {s t : State} (h : step s = .next t) :
    Sys2Proof.core.run (n + 1) s = Sys2Proof.core.run n t :=
  core_run_succ (M := Sys2Proof.core) h

/-- One run of steps after another. -/
theorem core_run_add {M : Host.Core} {m n : Nat} {s t : M.State} (h : M.run m s = .next t) :
    M.run (m + n) s = M.run n t := by
  induction m generalizing s with
  | zero =>
    injection h with h
    rw [Nat.zero_add, ← h]
  | succ m ih =>
    rw [Nat.succ_add]
    rw [Host.Core.run] at h ⊢
    cases hs : M.step s with
    | next u => rw [hs] at h; exact ih h
    | fault r => rw [hs] at h; cases h
    | refused r => rw [hs] at h; cases h

theorem run_add {m n : Nat} {s t : State} (h : Sys2Proof.core.run m s = .next t) :
    Sys2Proof.core.run (m + n) s = Sys2Proof.core.run n t :=
  core_run_add (M := Sys2Proof.core) h

end Sys2Proof.Machine
end

