-- ==== Sys2Proof/Laws/Sequencer.lean ====
section
/-! SUPPORT. Turns of the block: they do not look at the host's side of the port, and what one run of rounds
leaves. -/

namespace Sys2Proof.Machine

theorem leave_setInputs (n : Nat) (s : State) (l : List HostAction) :
    leave n (s.setInputs l) = (leave n s).setInputs l := by
  by_cases h : n + 1 < s.microOps.length <;> simp [leave, h] <;> rfl

theorem leave_setReads (n : Nat) (s : State) (l : List Byte) :
    leave n (s.setReads l) = (leave n s).setReads l := by
  by_cases h : n + 1 < s.microOps.length <;> simp [leave, h] <;> rfl

/-- A turn does not look at what the host does next. -/
theorem blockTurn_setInputs (s : State) (l : List HostAction) :
    blockTurn (s.setInputs l) = (blockTurn s).setInputs l := by
  simp only [blockTurn, State.setInputs_mpc, State.setInputs_microOps, State.setInputs_pos]
  cases s.mpc with
  | idle => rfl
  | entry n =>
    cases ho : s.microOps[n]? with
    | none => simp only [ho]; rfl
    | some o =>
      cases o with
      | perm r =>
        have hp : permRound r (s.setInputs l) = (permRound r s).setInputs l := rfl
        simp only [ho, hp]
        split
        · exact leave_setInputs _ _ _
        · rfl
      | _ => simp only [ho, microOp_run_setInputs]; exact leave_setInputs _ _ _

/-- A turn does not look at what the host has read. -/
theorem blockTurn_setReads (s : State) (l : List Byte) :
    blockTurn (s.setReads l) = (blockTurn s).setReads l := by
  simp only [blockTurn, State.setReads_mpc, State.setReads_microOps, State.setReads_pos]
  cases s.mpc with
  | idle => rfl
  | entry n =>
    cases ho : s.microOps[n]? with
    | none => simp only [ho]; rfl
    | some o =>
      cases o with
      | perm r =>
        have hp : permRound r (s.setReads l) = (permRound r s).setReads l := rfl
        simp only [ho, hp]
        split
        · exact leave_setReads _ _ _
        · rfl
      | _ => simp only [ho, microOp_run_setReads]; exact leave_setReads _ _ _

theorem turns_setInputs (n : Nat) (s : State) (l : List HostAction) :
    turns n (s.setInputs l) = (turns n s).setInputs l := by
  induction n generalizing s with
  | zero => rfl
  | succ n ih => rw [turns, turns, blockTurn_setInputs, ih]

theorem turns_setReads (n : Nat) (s : State) (l : List Byte) :
    turns n (s.setReads l) = (turns n s).setReads l := by
  induction n generalizing s with
  | zero => rfl
  | succ n ih => rw [turns, turns, blockTurn_setReads, ih]

theorem turns_add (m n : Nat) (s : State) : turns (m + n) s = turns n (turns m s) := by
  induction m generalizing s with
  | zero => simp [turns]
  | succ m ih => rw [Nat.succ_add]; exact ih _

/-- The turns of a permutation but the last: k rounds done, `POS` at k + 1, nothing else changed. -/
theorem turns_perm {s : State} {n : Nat} {r : Rounds} (hm : s.mpc = .entry n)
    (ho : s.microOps[n]? = some (.perm r)) (hp : s.pos = 1) (k : Nat) (hk : k < roundCount r) :
    turns k s = (s.setS (runRounds s.params.sbox5 r k s.S)).setSequencer s.mpc (k + 1) s.microOps := by
  induction k with
  | zero =>
    have h0 : 0 + 1 = s.pos := hp.symm
    rw [h0]
    rfl
  | succ k ih =>
    have h1 : turns (k + 1) s = blockTurn (turns k s) := turns_add k 1 s
    rw [h1, ih (by omega)]
    simp only [blockTurn, State.setSequencer_mpc, hm, State.setSequencer_microOps, ho,
      State.setSequencer_pos]
    rw [if_neg (by omega)]
    rfl

theorem posAt_posAt (l : List MicroOp) (n p : Nat) : posAt l n (posAt l n p) = posAt l n p := by
  unfold posAt
  cases l[n]? with
  | none => rfl
  | some o => cases o <;> rfl

theorem roundCount_pos (r : Rounds) : 0 < roundCount r := by cases r <;> decide

theorem runOps_setSequencer (l : List MicroOp) (s : State) (m : Mpc) (p : Nat) (ops : List MicroOp) :
    runOps l (s.setSequencer m p ops) = (runOps l s).setSequencer m p ops := by
  induction l generalizing s with
  | nil => rfl
  | cons o l ih => rw [runOps, microOp_run_setSequencer]; exact ih _

theorem block_finish_setSequencer (s : State) (m : Mpc) (p : Nat) (ops : List MicroOp) :
    (finish (s.setSequencer m p ops)).block = (finish s).block := rfl

theorem setSequencer_self (s : State) : s.setSequencer s.mpc s.pos s.microOps = s := rfl

/-- The turns of one micro-operation, from its entry: `STATUS` as it is before the last of them, and the last
leaves the entry with the micro-operation's whole effect done. -/
theorem turns_microOp {s : State} {n : Nat} {o : MicroOp} (hm : s.mpc = .entry n)
    (ho : s.microOps[n]? = some o) (hp : s.pos = posAt s.microOps n s.pos) :
    (∀ k, k < o.turns → (turns k s).status = s.status) ∧
    ∃ m p, turns o.turns s = leave n ((o.run s).setSequencer m p s.microOps) := by
  by_cases hperm : ∃ r, o = .perm r
  · obtain ⟨r, rfl⟩ := hperm
    have hpos : s.pos = 1 := by rw [hp]; simp [posAt, ho]
    have hk := turns_perm hm ho hpos
    have hr := roundCount_pos r
    refine ⟨fun k hlt => by rw [hk k hlt]; rfl, s.mpc, roundCount r + 1, ?_⟩
    obtain ⟨c, hc⟩ : ∃ c, roundCount r = c + 1 := ⟨roundCount r - 1, by omega⟩
    have h1 : turns (roundCount r) s = blockTurn (turns c s) := by rw [hc]; exact turns_add c 1 s
    show turns (roundCount r) s = _
    rw [h1, hk c (by omega)]
    simp only [blockTurn, State.setSequencer_mpc, hm, State.setSequencer_microOps, ho, State.setSequencer_pos]
    rw [if_pos (by omega)]
    simp only [MicroOp.run, mPerm, permute, hc]
    rfl
  · have ht : o.turns = 1 := by
      cases o with
      | perm r => exact absurd ⟨r, rfl⟩ hperm
      | _ => rfl
    have hturn : blockTurn s = leave n (o.run s) := by
      have hn : ∀ {k : Nat}, s.mpc = .entry k → k = n := by
        intro k h
        rw [hm] at h
        injection h with h
        exact h.symm
      rcases blockTurn_cases s with ⟨h, _⟩ | ⟨k, h, h', _⟩ | ⟨k, r, h, h', _⟩ | ⟨k, r, h, h', _⟩ |
        ⟨k, o', h, h', _, he⟩
      · rw [hm] at h; cases h
      · rw [hn h, ho] at h'; cases h'
      · rw [hn h, ho] at h'; injection h' with h'; exact absurd ⟨r, h'⟩ hperm
      · rw [hn h, ho] at h'; injection h' with h'; exact absurd ⟨r, h'⟩ hperm
      · rw [hn h, ho] at h'; injection h' with h'; rw [he, h', hn h]
    rw [ht]
    refine ⟨fun k hlt => by rw [show k = 0 by omega]; rfl, (o.run s).mpc, (o.run s).pos, ?_⟩
    have hself := setSequencer_self (o.run s)
    rw [microOp_run_microOps] at hself
    rw [hself]
    exact hturn

end Sys2Proof.Machine
end

