-- ==== Sys2Proof/Tests/Slice0.lean ====
section
/-! SUPPORT. The model's own tests. Expected results are those of spec/95_test_vectors.md (V<n>) or of the rule
named; then one witness for each statement that has hypotheses. -/

namespace Sys2Proof.Tests

open Sys2Proof.Machine

/-! ### Well-formedness: one ill-formed term per check -/

theorem test_op_check : ({ op := 3#4, arg := 0#4 } : CommandFields).opLegal = false := by decide
theorem test_rounds_check : ({ op := 1#4, arg := 4#4 } : CommandFields).roundsLegal = false := by decide
theorem test_encrypt_arg_check : ({ op := 2#4, arg := 1#4 } : CommandFields).encryptArgLegal = false := by
  decide
theorem test_fields_check : ({ op := 1#4, arg := 7#4 } : CommandFields).wellFormed = false := by decide
theorem test_wrs_check : (ScriptLine.wrs 0x3ff#10 [1#8, 2#8]).wellFormed = false := by decide
theorem test_rds_check : (ScriptLine.rds 0x3f8#10 9).wellFormed = false := by decide
theorem test_ldkey_check : (ScriptLine.ldkey [0#8]).wellFormed = false := by decide
theorem test_ldnonce_check : (ScriptLine.ldnonce (List.replicate 17 0#8)).wellFormed = false := by decide
theorem test_ldad_check : (ScriptLine.ldad (List.replicate 255 0#8)).wellFormed = false := by decide +kernel
theorem test_ldpt_check : (ScriptLine.ldpt (List.replicate 255 0#8)).wellFormed = false := by decide +kernel

/-! ### Decoding: bytes written out from 30_encoding.md R70, R71 (op, then arg) and R73 -/

theorem test_decode_perm6 : decode 0b00010110#8 = .command .perm6 := by decide
theorem test_decode_perm8 : decode 0b00011000#8 = .command .perm8 := by decide
theorem test_decode_perm12 : decode 0b00011100#8 = .command .perm12 := by decide
theorem test_decode_encrypt : decode 0b00100000#8 = .command .encrypt := by decide
theorem test_decode_bad_rounds : decode 0x1a#8 = .illegal .undefinedRounds := by decide
theorem test_decode_bad_arg : decode 0x2f#8 = .illegal .undefinedEncryptArg := by decide
theorem test_decode_bad_op : decode 0x00#8 = .illegal .undefinedOp := by decide
theorem test_decodeTableWord : decodeTableWord 8 0x1c = some .perm12 := by decide

/-! ### The engine: V6, V7, V8 -/

/-- The mixed state P of V6. -/
def mixed : Sponge :=
  { x0 := 0x0123456789abcdef#64, x1 := 0xfedcba9876543210#64, x2 := 0x0f1e2d3c4b5a6978#64,
    x3 := 0x8796a5b4c3d2e1f0#64, x4 := 0xdeadbeefcafef00d#64 }

theorem test_addRc_last : (addRc mixed .r12 12).x2 = 0x0f1e2d3c4b5a6933#64 := by decide

theorem test_subLayer_mixed : subLayer defaultSbox mixed =
    { x0 := 0xa7e7e5e777736767#64, x1 := 0x26446424fedbe60a#64, x2 := 0x56147210caddb49a#64,
      x3 := 0xa8f9c8dbb4a18697#64, x4 := 0x796b1b4b3d2c13ed#64 } := by decide +kernel

theorem test_linLayer_mixed : linLayer mixed =
    { x0 := 0xe2227bb3f3336aa2#64, x1 := 0x38d5c63fe5081be2#64, x2 := 0xe8ad43169fda3461#64,
      x3 := 0x8b4f03d6fc3874a1#64, x4 := 0xb2f59aea13845b32#64 } := by decide +kernel

theorem test_linLayer_wrap :
    (linLayer { x0 := 1#64, x1 := 1#64, x2 := 1#64, x3 := 1#64, x4 := 1#64 }) =
    { x0 := 0x0000201000000001#64, x1 := 0x0000000002000009#64, x2 := 0x8400000000000001#64,
      x3 := 0x0040800000000001#64, x4 := 0x0200000000800001#64 } := by decide +kernel

/-! ### The commands, one step each -/

/-- The state after a step, for comparing its fields. -/
def after (s : State) : State :=
  match step s with
  | .next t => t
  | _ => s

/-- An idle block whose host writes a command byte next. -/
def about (c : Byte) (s : State) : State := { s with inputs := [.write 0x030#10 c] }

/-- V5, `PERM6` of the zero state. -/
theorem test_perm6_zero : (after (about 0x16#8 State.reset)).S =
    { x0 := 0x160c84f20faad4f1#64, x1 := 0x21495b1b0ae33eef#64, x2 := 0xe0377d04e23a914b#64,
      x3 := 0x2b23481598ffa8ea#64, x4 := 0x649af379ba83cd30#64 } := by decide +kernel

/-- V6, `PERM8` of P. -/
theorem test_perm8_mixed : (after (about 0x18#8 { State.reset with S := mixed })).S =
    { x0 := 0x4d3a8af75c2585e6#64, x1 := 0xdc7ea3a6e7f954bd#64, x2 := 0x8097a30dc4c09c60#64,
      x3 := 0x8cd1f98a790c75c9#64, x4 := 0x69b8fa77042775e0#64 } := by decide +kernel

/-- V4 and Program 1, `PERM12` after reset. -/
theorem test_perm12_zero : (after (State.reset.withFetchWord 8 0x1c)).S =
    { x0 := 0x78ea7ae5cfebb108#64, x1 := 0x9b9bfb8513b560f7#64, x2 := 0x6937f83e03d11a50#64,
      x3 := 0x3fe53f36f2c1178c#64, x4 := 0x045d648e4def12c9#64 } := by decide +kernel

/-- The operands of V3: key = nonce = 00 01 .. 0f, AD "ASCON", four bytes of plaintext. -/
def knownAnswer : State :=
  writeBytes .key 0 ((List.range 16).map (BitVec.ofNat 8))
    (writeBytes .nonce 0 ((List.range 16).map (BitVec.ofNat 8))
      (writeBytes .ad 0 [0x41#8, 0x53#8, 0x43#8, 0x4f#8, 0x4e#8]
        (writeBytes .pt 0 [0x8b#8, 0x86#8, 0xd9#8, 0x32#8]
          { State.reset with adlen := 5#8, ptlen := 4#8, present := 0x3f#6 })))

/-- V10. -/
theorem test_encrypt_known_answer :
    readBytes .ct 0 4 (after (about 0x20#8 knownAnswer)) = [0x3a#8, 0x14#8, 0x51#8, 0xed#8] ∧
    readBytes .tag 0 16 (after (about 0x20#8 knownAnswer)) =
      [0xe8#8, 0xd0#8, 0x13#8, 0x2f#8, 0x62#8, 0x24#8, 0x15#8, 0xff#8,
       0xe8#8, 0xd5#8, 0xf0#8, 0xac#8, 0x64#8, 0x82#8, 0x2a#8, 0xad#8] := by decide +kernel

/-- V13: lengths that are whole blocks, so that the last block of each kind is padding alone. -/
theorem test_encrypt_whole_blocks :
    readBytes .ct 0 9 (after (about 0x20#8
      (writeBytes .ad 0 ((List.range' 0x10 8).map (BitVec.ofNat 8))
        (writeBytes .pt 0 ((List.range' 0x20 8).map (BitVec.ofNat 8))
          { knownAnswer with adlen := 8#8, ptlen := 8#8 })))) =
      [0x4e#8, 0x44#8, 0x81#8, 0xe1#8, 0x64#8, 0x47#8, 0x3a#8, 0xc4#8, 0x00#8] := by decide +kernel

/-! ### STATUS and errors: V22 -/

theorem test_missing_buffer_first :
    statusByte (after (about 0x20#8 { State.reset with adlen := 255#8, ptlen := 255#8 })).status = 0x06#8 := by
  decide
theorem test_length_out_of_range :
    statusByte (after (about 0x20#8 { State.reset with ptlen := 255#8, present := 0x3f#6 })).status = 0x0a#8 := by
  decide
theorem test_illegal_command : statusByte (after (about 0x14#8 State.reset)).status = 0x0e#8 := by decide

/-! ### The host port: V23, V24, V25 -/

theorem test_present_drops_high_bits :
    hostRead 0x034#10 (after { State.reset with inputs := [.write 0x034#10 0xff#8] }) = 0x3f#8 := by decide
theorem test_tag_read_only :
    hostRead 0x060#10 (after { State.reset with inputs := [.write 0x060#10 0xaa#8] }) = 0x00#8 := by decide
theorem test_state_word_first_byte :
    (after { State.reset with inputs := [.write 0x000#10 0x12#8] }).S.x0 = 0x1200000000000000#64 := by
  decide +kernel
theorem test_state_word_last_byte :
    (after { State.reset with inputs := [.write 0x027#10 0x01#8] }).S.x4 = 0x0000000000000001#64 := by
  decide +kernel
theorem test_reserved_reads_zero :
    hostRead 0x1fe#10 (after { State.reset with inputs := [.write 0x1fe#10 0x55#8] }) = 0x00#8 := by decide
theorem test_blk_ascon : blk .ad 5 0 knownAnswer = 0x4153434f4e800000#64 := by decide +kernel
theorem test_blk_pure_padding : blk .pt 8 1 knownAnswer = 0x8000000000000000#64 := by decide
theorem test_bytes8 : bytes8 0x3a1451edf70d398d#64
    = [0x3a#8, 0x14#8, 0x51#8, 0xed#8, 0xf7#8, 0x0d#8, 0x39#8, 0x8d#8] := by decide

/-! ### The values of a script's lines: 30_encoding.md R76, R77, with `S[0]` of V10 as it is emitted (20_memory.md R40)
-/

theorem test_rd64_value :
    lineValue (.rd64 0) [0x3a#8, 0x14#8, 0x51#8, 0xed#8, 0xf7#8, 0x0d#8, 0x39#8, 0x8d#8]
      = some (.word 0x3a1451edf70d398d#64) := by decide
theorem test_rd64_unfinished : lineValue (.rd64 0) [0x3a#8] = none := by decide
theorem test_poll_value : lineValue .poll [0x01#8, 0x01#8, 0x0e#8] = some (.byte 0x0e#8) := by decide
theorem test_poll_unfinished : lineValue .poll [0x01#8] = none := by decide

/-! ### The timed view: V23's busy rows, 42_control.md R172 -/

/-- An instance with a positive latency, all buffers present. -/
def timedIdle : State :=
  { State.reset with present := 0x3f#6, params := { defaultParams with timing := .timed } }

/-- The same instance, `PERM6` started. -/
def timedBusy : State := start .perm6 (accept timedIdle)

theorem test_busy_reads_one : hostRead 0x031#10 timedBusy = 0x01#8 := by decide
theorem test_timed_start : (after (about 0x16#8 timedIdle)).mpc = .entry 0 := by decide
theorem test_timed_first_round : (after timedBusy).pos = 2 ∧ (after timedBusy).S
    = round defaultSbox .r6 1 Sponge.zero := by decide +kernel
theorem test_reset_while_busy :
    (after { timedBusy with inputs := [.reset] }).block = { State.reset with params := timedIdle.params } := by
  decide

/-! ### Witnesses: for each statement with hypotheses, a state and operands that meet them -/

theorem timedBusy_inv : MachineInv timedBusy where
  mem_wf := rfl
  mem_stores := by intro c hc; cases hc
  busy_iff := by decide
  busy_not_done := by decide
  err_done := by decide
  atomic_idle := by decide
  idle_list := by decide
  running := by
    intro n hn
    injection hn with hn
    subst hn
    exact ⟨by decide, .perm6, by decide, by decide⟩
  pos_range := by
    intro n r hn hr
    injection hn with hn
    subst hn
    injection hr with hr
    injection hr with hr
    subst hr
    decide

theorem reset_inv : MachineInv State.reset where
  mem_wf := rfl
  mem_stores := by intro c hc; cases hc
  busy_iff := by decide
  busy_not_done := by decide
  err_done := by decide
  atomic_idle := by decide
  idle_list := by decide
  running := by intro n hn; cases hn
  pos_range := by intro n r hn; cases hn

theorem witness_ResetEventFromAnyState :
    ∃ (s : State) (rest : List HostAction), s.inputs = .reset :: rest ∧ s.status.busy = true :=
  ⟨{ timedBusy with inputs := [.reset] }, [], rfl, rfl⟩

theorem witness_EveryStepKeepsInvariant :
    ∃ s t : State, MachineInv s ∧ step s = .next t ∧ t.status.busy = true :=
  ⟨timedBusy, _, timedBusy_inv, rfl, by decide⟩

theorem witness_CommandBytesDecode : ∃ (c : Byte) (i : Instr), decode c = .command i :=
  ⟨0x20#8, .encrypt, by decide⟩

theorem witness_StepRunsDecodedCommand_atomic :
    ∃ (s : State) (c : Byte) (i : Instr) (rest : List HostAction), s.inputs = .write cmdAddr c :: rest ∧
      s.status.busy = false ∧ decode c = .command i ∧ s.params.timing = .atomic :=
  ⟨about 0x20#8 knownAnswer, 0x20#8, .encrypt, [], rfl, rfl, by decide, by decide⟩

theorem witness_StepRunsDecodedCommand_timed :
    ∃ (s : State) (c : Byte) (i : Instr) (rest : List HostAction), s.inputs = .write cmdAddr c :: rest ∧
      s.status.busy = false ∧ decode c = .command i ∧ s.params.timing = .timed :=
  ⟨about 0x1c#8 timedIdle, 0x1c#8, .perm12, [], rfl, rfl, by decide, rfl⟩

theorem witness_IllegalByteOnlyReports :
    ∃ (s : State) (c : Byte) (rest : List HostAction), s.inputs = .write cmdAddr c :: rest ∧
      s.status.busy = false ∧ c ≠ 0x16#8 ∧ c ≠ 0x18#8 ∧ c ≠ 0x1c#8 ∧ c ≠ 0x20#8 :=
  ⟨about 0x17#8 State.reset, 0x17#8, [], rfl, rfl, by decide, by decide, by decide, by decide⟩

theorem witness_RoundConstants :
    (1 ≤ 1 ∧ 1 ≤ roundCount .r6) ∧ (1 ≤ 8 ∧ 8 ≤ roundCount .r8) ∧ (1 ≤ 12 ∧ 12 ≤ roundCount .r12) := by decide

theorem witness_AddRcChangesLowByteOfWordTwo : 1 ≤ 12 ∧ 12 ≤ roundCount .r12 ∧ 8 ≤ 8 := by decide

theorem witness_AnySubLayerIsOneColumnFunction : 0 < 64 ∧ 63 < 64 := by decide

theorem witness_DefaultSubLayerIsTheTable : 0 < 64 ∧ 63 < 64 := by decide

theorem witness_LinLayerRows : 0 < 64 ∧ 63 < 64 := by decide

theorem witness_PermuteIsBijective : Function.Bijective (subLayer []) :=
  ⟨fun _ _ h => h, fun X => ⟨X, rfl⟩⟩

theorem witness_BigEndianBothWays : (List.replicate 8 0x80#8).length = 8 ∧ 7 < 8 := by decide

theorem witness_BlockCounts : (254 ≤ 254) ∧ (248 ≤ 254 ∧ 248 % 8 = 0) ∧ (0 ≤ 254 ∧ 0 % 8 = 0) ∧
    (∃ s : State, s.adlen.toNat % 8 = 0 ∧ s.ptlen.toNat % 8 = 0 ∧ s.adlen = 248#8 ∧ s.ptlen = 0#8) :=
  ⟨by decide, by decide, by decide, { State.reset with adlen := 248#8 }, by decide, by decide, rfl, rfl⟩

/-- 41_aead_orchestrator.md R132: no 8-bit wrap where the sum would have one. -/
theorem test_block_counts_do_not_wrap :
    adBlocks { State.reset with adlen := 254#8 } = 32 ∧ ptBlocks { State.reset with ptlen := 248#8 } = 32 ∧
    ptBlocks State.reset = 1 := by decide

theorem witness_PaddedBlocks : 254 ≤ 254 ∧ 7 < 8 ∧ 8 * 31 + 6 = 254 := by decide

theorem witness_MissingBufferExactly :
    State.reset.present ≠ 0b111111#6 ∧
    (∃ t, exec .encrypt State.reset = .next t ∧ t.status.err = .missingBuffer) ∧
    (∃ (s t : State) (rest : List HostAction), s.inputs = .write cmdAddr 0x20#8 :: rest ∧
      s.status.busy = false ∧ s.present ≠ 0b111111#6 ∧ s.params.timing = .timed ∧ step s = .next t ∧
      t.status.err = .missingBuffer) :=
  ⟨by decide, ⟨_, rfl, by decide⟩,
    about 0x20#8 { timedIdle with present := 0x3e#6 }, _, [], rfl, rfl, by decide, rfl, rfl, by decide⟩

theorem witness_LengthOutOfRangeExactly :
    (∃ s : State, s.present = 0b111111#6 ∧ s.adlen = 255#8) ∧
    (∃ s t : State, s.present = 0b111111#6 ∧ s.ptlen = 255#8 ∧ exec .encrypt s = .next t ∧
      t.status.err = .lengthOutOfRange) ∧
    (∃ (s t : State) (rest : List HostAction), s.inputs = .write cmdAddr 0x20#8 :: rest ∧
      s.status.busy = false ∧ s.present = 0b111111#6 ∧ s.adlen = 255#8 ∧ s.params.timing = .timed ∧
      step s = .next t ∧ t.status.err = .lengthOutOfRange) :=
  ⟨⟨{ timedIdle with adlen := 255#8 }, rfl, rfl⟩,
    ⟨{ timedIdle with ptlen := 255#8 }, _, rfl, rfl, rfl, by decide⟩,
    about 0x20#8 { timedIdle with adlen := 255#8 }, _, [], rfl, rfl, rfl, rfl, rfl, rfl, by decide⟩

theorem witness_ErrorChangesOnlyTheReport :
    ∃ (s t : State) (c : Byte) (rest : List HostAction), s.inputs = .write cmdAddr c :: rest ∧
      s.status.busy = false ∧ step s = .next t ∧ t.status.err ≠ .none :=
  ⟨about 0x20#8 State.reset, _, 0x20#8, [], rfl, rfl, rfl, by decide⟩

/-- Operands of the greatest lengths. -/
def longest : State := { State.reset with adlen := 254#8, ptlen := 254#8, present := 0x3f#6 }

theorem witness_EncryptCompletes :
    longest.present = 0b111111#6 ∧ longest.adlen.toNat ≤ 254 ∧ longest.ptlen.toNat ≤ 254 := by decide

theorem witness_EncryptComputesReference :
    Memory.wf knownAnswer.mem = true ∧ knownAnswer.present = 0b111111#6 ∧ knownAnswer.adlen.toNat ≤ 254 ∧
    knownAnswer.ptlen.toNat ≤ 254 := by decide +kernel

/-- The known-answer operands beside other contents of `S`, `CT` and the bytes beyond the lengths. -/
def knownAnswerDirty : State :=
  writeStore .ct 200 0x55#8 (writeStore .pt 4 0x77#8 { knownAnswer with S := mixed })

theorem witness_EncryptDependsOnOperandsOnly :
    Memory.wf knownAnswer.mem = true ∧ Memory.wf knownAnswerDirty.mem = true ∧
    SameEncryptInputs knownAnswer knownAnswerDirty ∧
    (∃ t, exec .encrypt knownAnswer = .next t) ∧ (∃ t, exec .encrypt knownAnswerDirty = .next t) :=
  ⟨by decide +kernel, by decide +kernel, by unfold SameEncryptInputs; decide +kernel,
    ⟨_, exec_eq _ _⟩, ⟨_, exec_eq _ _⟩⟩

/-- The known-answer operands with another plaintext byte in block 0, and one byte more. -/
def knownAnswerLonger : State :=
  writeStore .pt 3 0x33#8 { knownAnswer with ptlen := 5#8 }

theorem witness_CiphertextByteIsMaskedPlaintext :
    Memory.wf knownAnswer.mem = true ∧ Memory.wf knownAnswerLonger.mem = true ∧
    knownAnswer.present = 0b111111#6 ∧ knownAnswerLonger.present = 0b111111#6 ∧
    knownAnswerLonger.params = knownAnswer.params ∧ knownAnswerLonger.adlen = knownAnswer.adlen ∧
    (∀ k, k < 16 → readStore .key k knownAnswerLonger = readStore .key k knownAnswer) ∧
    (∀ k, k < 16 → readStore .nonce k knownAnswerLonger = readStore .nonce k knownAnswer) ∧
    (∀ k, k < knownAnswer.adlen.toNat → readStore .ad k knownAnswerLonger = readStore .ad k knownAnswer) ∧
    (∀ k, k < 8 * (3 / 8) → readStore .pt k knownAnswerLonger = readStore .pt k knownAnswer) ∧
    3 < knownAnswer.ptlen.toNat ∧ 3 < knownAnswerLonger.ptlen.toNat ∧
    readStore .pt 3 knownAnswerLonger ≠ readStore .pt 3 knownAnswer := by decide +kernel

/-- Twelve bytes of plaintext, and ten of which the first block is the same and the second differs. -/
def twoBlocks : State := { knownAnswer with ptlen := 12#8 }
def twoBlocksOther : State :=
  writeStore .pt 8 0x11#8 (writeStore .pt 9 0x22#8 { knownAnswer with ptlen := 10#8 })

/-- In a later block: byte 9, whose block is the second. -/
theorem witness_CiphertextByteIsMaskedPlaintext_later_block :
    Memory.wf twoBlocks.mem = true ∧ Memory.wf twoBlocksOther.mem = true ∧
    twoBlocks.present = 0b111111#6 ∧ twoBlocksOther.present = 0b111111#6 ∧
    twoBlocksOther.params = twoBlocks.params ∧ twoBlocksOther.adlen = twoBlocks.adlen ∧
    twoBlocks.adlen.toNat ≤ 254 ∧ twoBlocks.ptlen.toNat ≤ 254 ∧ twoBlocksOther.ptlen.toNat ≤ 254 ∧
    (∀ k, k < 16 → readStore .key k twoBlocksOther = readStore .key k twoBlocks) ∧
    (∀ k, k < 16 → readStore .nonce k twoBlocksOther = readStore .nonce k twoBlocks) ∧
    (∀ k, k < twoBlocks.adlen.toNat → readStore .ad k twoBlocksOther = readStore .ad k twoBlocks) ∧
    (∀ k, k < 8 * (9 / 8) → readStore .pt k twoBlocksOther = readStore .pt k twoBlocks) ∧
    9 < twoBlocks.ptlen.toNat ∧ 9 < twoBlocksOther.ptlen.toNat ∧
    readStore .pt 9 twoBlocksOther ≠ readStore .pt 9 twoBlocks := by decide +kernel

theorem witness_CiphertextByteIsMaskedPlaintext_completes :
    (∃ t, exec .encrypt twoBlocks = .next t) ∧ (∃ t, exec .encrypt twoBlocksOther = .next t) :=
  ⟨⟨_, exec_eq _ _⟩, ⟨_, exec_eq _ _⟩⟩

theorem witness_TagBytesAreMaskedWords : Memory.wf knownAnswer.mem = true ∧ 0 < 8 ∧ 7 < 8 := by decide +kernel

theorem witness_EncryptListCounts : (1 ≤ 1 ∧ 1 ≤ 1) ∧ (1 ≤ 32 ∧ 32 ≤ 32) := by decide

theorem witness_EmissionsWriteCiphertext :
    Memory.wf knownAnswer.mem = true ∧ 3 < tailLength knownAnswer.ptlen.toNat := by decide +kernel

theorem witness_TimedViewRefinesAtomicView :
    ∃ (s t : State) (c : Byte) (i : Instr) (acts rest : List HostAction),
      s.status.busy = false ∧ s.params.timing = .timed ∧ decode c = .command i ∧ commandError i s = none ∧
      s.inputs = .write cmdAddr c :: (acts ++ .wait :: rest) ∧
      (∀ h ∈ acts, h ≠ .poll ∧ h ≠ .reset) ∧ acts.count .wait + 1 = turnsOf (opsOf i s) ∧
      exec i (accept s) = .next t :=
  ⟨{ timedIdle with inputs := .write cmdAddr 0x16#8 ::
      ([.wait, .read 0x031#10, .wait, .write 0x030#10 0x20#8, .wait, .wait, .wait] ++ .wait :: [.poll]) },
    _, 0x16#8, .perm6, [.wait, .read 0x031#10, .wait, .write 0x030#10 0x20#8, .wait, .wait, .wait], [.poll],
    rfl, rfl, by decide, by decide, rfl, by decide, by decide, rfl⟩

theorem witness_PosIsKeptWhereItIsMeaningless : ∃ (i : Instr) (s t : State), exec i s = .next t ∧ s.pos ≠ 0 :=
  ⟨.perm6, { State.reset with pos := 7 }, _, rfl, by decide⟩

/-- The poll of a started `PERM6` whose first turn is past, and the one at once after `CMD` (`RUN PERM6`). -/
theorem witness_PollLastsUntilTheCommandEnds :
    (∃ (s t : State) (acts rest : List HostAction) (n : Nat),
      s.status.busy = false ∧ s.params.timing = .timed ∧ decode 0x16#8 = .command .perm6 ∧
      commandError .perm6 s = none ∧ s.inputs = .write cmdAddr 0x16#8 :: (acts ++ .poll :: rest) ∧
      (∀ h ∈ acts, h ≠ .poll ∧ h ≠ .reset) ∧ acts.count .wait + n = turnsOf (opsOf .perm6 s) ∧ 1 ≤ n ∧
      exec .perm6 (accept s) = .next t) ∧
    (∃ (s t : State) (n : Nat),
      s.status.busy = false ∧ s.params.timing = .timed ∧ s.inputs = expandLine (.run (.name .perm6)) ∧
      n = turnsOf (opsOf .perm6 s) ∧ 1 ≤ n ∧ exec .perm6 (accept s) = .next t) :=
  ⟨⟨{ timedIdle with inputs := .write cmdAddr 0x16#8 ::
        ([.wait, .read 0x000#10, .write 0x030#10 0x20#8] ++ .poll :: [.read 0x000#10]) },
      _, [.wait, .read 0x000#10, .write 0x030#10 0x20#8], [.read 0x000#10], 5,
      rfl, rfl, by decide, by decide, rfl, by decide, by decide, by decide, rfl⟩,
    ⟨{ timedIdle with inputs := expandLine (.run (.name .perm6)) }, _, 6,
      rfl, rfl, rfl, by decide, by decide, rfl⟩⟩

theorem witness_EveryAcceptedCommandEnds : MachineInv timedBusy ∧ timedBusy.status.busy = true :=
  ⟨timedBusy_inv, rfl⟩

theorem witness_BusyStatusReadsOne : ∃ s : State, MachineInv s ∧ s.status.busy = true :=
  ⟨timedBusy, timedBusy_inv, rfl⟩

theorem witness_BusyBlockIgnoresHost :
    (∃ s : State, s.status.busy = true ∧ s.inputs = [.write 0x030#10 0x20#8]) ∧
    (∃ s : State, s.status.busy = true ∧ s.inputs = [.read 0x300#10]) ∧
    (∃ s : State, s.status.busy = true ∧ s.inputs = [.read 0x031#10]) :=
  ⟨⟨{ timedBusy with inputs := [.write 0x030#10 0x20#8] }, rfl, rfl⟩,
    ⟨{ timedBusy with inputs := [.read 0x300#10] }, rfl, rfl⟩,
    ⟨{ timedBusy with inputs := [.read 0x031#10] }, rfl, rfl⟩⟩

theorem witness_ControlIndependentOfData :
    ∃ s s' : State, s'.mpc = s.mpc ∧ s'.pos = s.pos ∧ s'.microOps = s.microOps ∧ s'.status = s.status ∧
      s'.present = s.present ∧ s'.adlen = s.adlen ∧ s'.ptlen = s.ptlen ∧ s'.S ≠ s.S :=
  ⟨timedBusy, { timedBusy with S := mixed }, rfl, rfl, rfl, rfl, rfl, rfl, rfl, by decide⟩

theorem witness_HostReadMap :
    State.reset.status.busy = false ∧ timedBusy.status.busy = true ∧ itemAt 0x3ff#10 = .reserved ∧
    ∃ s : State, s.inputs = [.read 0x06f#10] :=
  ⟨rfl, rfl, by decide, { State.reset with inputs := [.read 0x06f#10] }, rfl⟩

theorem witness_HostWriteThenRead :
    (∃ s : State, Memory.wf s.mem = true ∧ s.status.busy = false ∧ (0x1fd#10 : HostAddr) ≠ 0x030#10 ∧
      s.inputs = [.write 0x1fd#10 0xff#8]) ∧
    (∃ s : State, Memory.wf s.mem = true ∧ s.status.busy = false ∧ (0x034#10 : HostAddr) ≠ 0x030#10 ∧
      s.inputs = [.write 0x034#10 0xff#8]) ∧
    (∃ s : State, Memory.wf s.mem = true ∧ s.status.busy = false ∧ (0x060#10 : HostAddr) ≠ 0x030#10 ∧
      s.inputs = [.write 0x060#10 0xff#8]) :=
  ⟨⟨{ State.reset with inputs := [.write 0x1fd#10 0xff#8] }, rfl, rfl, by decide, rfl⟩,
    ⟨{ State.reset with inputs := [.write 0x034#10 0xff#8] }, rfl, rfl, by decide, rfl⟩,
    ⟨{ State.reset with inputs := [.write 0x060#10 0xff#8] }, rfl, rfl, by decide, rfl⟩⟩

theorem witness_ReportPersistsUntilNextCommand :
    ∃ s t : State, MachineInv s ∧ s.status.busy = false ∧ step s = .next t ∧
      (∀ v rest, s.inputs ≠ .write cmdAddr v :: rest) ∧ (∀ rest, s.inputs ≠ .reset :: rest) :=
  ⟨State.reset, _, reset_inv, rfl, rfl, (by intro v rest h; cases h),
    (by intro rest h; cases h)⟩

theorem witness_ParametersNeverChange : ∃ s t : State, step s = .next t ∧ s.inputs = [.reset] :=
  ⟨{ timedBusy with inputs := [.reset] }, _, rfl, rfl⟩

theorem witness_BlockNeverWritesOperands :
    ∃ s t : State, MachineInv s ∧ step s = .next t ∧ s.status.busy = true ∧
      (∀ a v rest, s.inputs = .write a v :: rest → a = cmdAddr) ∧ (∀ rest, s.inputs ≠ .reset :: rest) :=
  ⟨timedBusy, _, timedBusy_inv, rfl, rfl, (by intro a v rest h; cases h),
    (by intro rest h; cases h)⟩

theorem witness_PollReadsStatusUntilIdle :
    (∃ s : State, s.inputs = [.poll] ∧ s.status.busy = false) ∧
    (∃ s : State, s.inputs = [.poll] ∧ s.status.busy = true) :=
  ⟨⟨{ State.reset with inputs := [.poll] }, rfl, rfl⟩, ⟨{ timedBusy with inputs := [.poll] }, rfl, rfl⟩⟩

theorem witness_WriteWordLoadsStateWord :
    ∃ s : State, s.status.busy = false ∧ s.inputs = expandLine (.wr64 4 0x0123456789abcdef#64) ++ [.poll] :=
  ⟨{ State.reset with inputs := expandLine (.wr64 4 0x0123456789abcdef#64) ++ [.poll] }, rfl, rfl⟩

theorem witness_ReadWordGivesStateWord :
    ∃ s : State, s.status.busy = false ∧ s.inputs = expandLine (.rd64 4) ++ [.poll] ∧ s.S = mixed :=
  ⟨{ State.reset with S := mixed, inputs := expandLine (.rd64 4) ++ [.poll] }, rfl, rfl, rfl⟩

theorem witness_ReadStringGivesBytesInOrder :
    (∃ s : State, (0x3ff#10 : HostAddr).toNat + 1 ≤ 1024 ∧
      s.inputs = expandLine (.rds 0x3ff#10 1) ++ [.poll]) ∧
    (∃ s : State, (0x060#10 : HostAddr).toNat + 16 ≤ 1024 ∧ s.inputs = expandLine (.rds 0x060#10 16) ++ []) :=
  ⟨⟨{ State.reset with inputs := expandLine (.rds 0x3ff#10 1) ++ [.poll] }, by decide, rfl⟩,
    ⟨{ timedBusy with inputs := expandLine (.rds 0x060#10 16) ++ [] }, by decide, rfl⟩⟩

end Sys2Proof.Tests
end

section
/-! What each of the machine's operations does to the parameters of the instance (00_scope.md R5): nothing. -/

namespace Sys2Proof.Machine

@[simp] theorem goTo_params (n : Nat) (s : State) : (goTo n s).params = s.params := rfl

@[simp] theorem start_params (i : Instr) (s : State) : (start i s).params = s.params := rfl

@[simp] theorem permRound_params (r : Rounds) (s : State) : (permRound r s).params = s.params := rfl

@[simp] theorem recordRead_params (a : HostAddr) (s : State) : (recordRead a s).params = s.params := rfl

@[simp] theorem resetEvent_params (s : State) : (resetEvent s).params = s.params := rfl

@[simp] theorem leave_params (n : Nat) (s : State) : (leave n s).params = s.params := by
  rcases leave_cases n s with ⟨_, h⟩ | ⟨_, h⟩
  · rw [h, goTo_params]
  · rw [h, finish_params]

@[simp] theorem blockTurn_params (s : State) : (blockTurn s).params = s.params := by
  rcases blockTurn_cases s with ⟨_, h⟩ | ⟨_, _, _, h⟩ | ⟨_, _, _, _, _, h⟩ | ⟨_, _, _, _, _, h⟩ |
    ⟨_, _, _, _, _, h⟩
  · rw [h]
  · rw [h, finish_params]
  · rw [h, leave_params, permRound_params]
  · rw [h, permRound_params]
  · rw [h, leave_params, microOp_run_params]

@[simp] theorem pollOnce_params (s : State) : (pollOnce s).params = s.params := by
  unfold pollOnce
  split
  · simp
  · simp

@[simp] theorem writeItem_params (it : Item) (v : Byte) (s : State) :
    (writeItem it v s).params = s.params := by
  cases it with
  | store X k =>
    cases hw : X.hostWritable with
    | true => simp [writeItem, hw]
    | false => simp [writeItem, hw]
  | _ => rfl

theorem submit_params {c : Byte} {s t : State} (h : submit c s = .next t) : t.params = s.params := by
  rcases submit_cases h with ⟨_, _, rfl⟩ | ⟨_, _, _, _, rfl⟩ | ⟨_, _, _, _, rfl⟩ | ⟨_, _, _, _, rfl⟩
  · rw [raise_params, accept_params]
  · rw [raise_params, accept_params]
  · rw [finish_params, runOps_params, accept_params]
  · rw [start_params, accept_params]

/-- Settles O46, by the ways a step goes: the operation each of them runs keeps the parameters. -/
theorem parametersNeverChange : Obligations.ParametersNeverChange := by
  intro s t h
  rcases step_cases h with ⟨_, rfl⟩ | ⟨_, _, rfl⟩ | ⟨_, _, rfl⟩ | ⟨_, _, rfl⟩ | ⟨_, _, _, rfl⟩ |
    ⟨_, _, _, _, _, rfl⟩ | ⟨_, _, _, _, _, _, hsubmit⟩ | ⟨_, _, _, _, _, _, rfl⟩
  · exact blockTurn_params s
  · rw [blockTurn_params, State.setInputs_params]
  · rw [resetEvent_params, State.setInputs_params]
  · rw [pollOnce_params, State.setInputs_params]
  · rw [recordRead_params, State.setInputs_params]
  · exact State.setInputs_params _ _
  · rw [submit_params hsubmit, State.setInputs_params]
  · rw [writeItem_params, State.setInputs_params]

end Sys2Proof.Machine
end

section
/-! The machine's invariant `MachineInv`: what it says of an idle block and of a busy one, each as a predicate of
its own, and that reset meets it and every step keeps it. -/

namespace Sys2Proof.Machine

/-! ### The memory inside the stores -/

/-- The memory is canonical and lists bytes of stores only (20_memory.md R44). -/
structure CanonicalStores (m : List Host.Cell) : Prop where
  wf : Memory.wf m = true
  inStores : MemInStores m

theorem canonicalStores_nil : CanonicalStores [] where
  wf := rfl
  inStores := fun _ hc => nomatch hc

theorem CanonicalStores.after_memSet {m : List Host.Cell} (h : CanonicalStores m) {X : Store} {a : Nat}
    (ha : X.holds a = true) (v : Byte) : CanonicalStores (memSet m a v) where
  wf := memSet_wf a v h.wf
  inStores := fun c hc => by
    rcases mem_memSet hc with hca | hcm
    · exact ⟨X, hca ▸ ha⟩
    · exact h.inStores c hcm

/-- Every byte a command that passed its tests stores to lies in a result store (41_aead_orchestrator.md R143):
the length test keeps `CT[0..PTLEN-1]` inside `CT`. -/
theorem opStores_in_results {i : Instr} {s t : State} {o : MicroOp} {a : Nat} (hc : commandError i s = none)
    (ho : o ∈ opsOf i s) (hl : t.ptlen = s.ptlen) (h : opStores o t a) :
    Store.ct.holds a = true ∨ Store.tag.holds a = true := by
  have hpt : s.ptlen.toNat ≤ 254 := by
    cases i with
    | encrypt => exact (commandError_encrypt_none hc).2.2
    | _ =>
      obtain rfl := List.mem_singleton.mp ho
      exact h.elim
  rcases opStores_of_mem ho hl h with ⟨hlo, hhi⟩ | htag
  · exact .inl (store_holds_iff.mpr ⟨hlo, by simp only [Store.size]; omega⟩)
  · exact .inr (store_holds_iff.mpr htag)

theorem CanonicalStores.after_run {i : Instr} {s t : State} {o : MicroOp} (h : CanonicalStores t.mem)
    (hc : commandError i s = none) (ho : o ∈ opsOf i s) (hl : t.ptlen = s.ptlen) :
    CanonicalStores (o.run t).mem where
  wf := microOp_run_mem_wf o h.wf
  inStores := fun c hcm => by
    rcases mem_microOp_run hcm with hst | hold
    · rcases opStores_in_results hc ho hl hst with hct | htag
      · exact ⟨.ct, hct⟩
      · exact ⟨.tag, htag⟩
    · exact h.inStores c hold

theorem CanonicalStores.after_runOps {i : Instr} {s t : State} (h : CanonicalStores t.mem)
    (hc : commandError i s = none) (hl : t.ptlen = s.ptlen) :
    CanonicalStores (runOps (opsOf i s) t).mem :=
  (runOps_induction (P := fun u => CanonicalStores u.mem ∧ u.ptlen = s.ptlen)
    (fun o ho u ⟨hu, hlu⟩ => ⟨hu.after_run hc ho hlu, (microOp_run_ptlen o u).trans hlu⟩) ⟨h, hl⟩).1

/-! ### The invariant of an idle block -/

/-- What the invariant says of an idle block. -/
structure Resting (s : State) : Prop where
  stores : CanonicalStores s.mem
  not_busy : s.status.busy = false
  err_done : s.status.done = false → s.status.err = .none
  mpc_idle : s.mpc = .idle
  no_list : s.microOps = []

theorem Resting.inv {s : State} (h : Resting s) : MachineInv s where
  mem_wf := h.stores.wf
  mem_stores := h.stores.inStores
  busy_iff := by simp [h.not_busy, h.mpc_idle]
  busy_not_done := by simp [h.not_busy]
  err_done := h.err_done
  atomic_idle := fun _ => h.not_busy
  idle_list := fun _ => h.no_list
  running := by simp [h.mpc_idle]
  pos_range := by simp [h.mpc_idle]

theorem MachineInv.stores {s : State} (h : MachineInv s) : CanonicalStores s.mem := ⟨h.mem_wf, h.mem_stores⟩

theorem MachineInv.resting {s : State} (h : MachineInv s) (hb : s.status.busy = false) : Resting s := by
  have hidle : s.mpc = .idle := by
    by_contra hm
    simp [h.busy_iff.mpr hm] at hb
  exact ⟨h.stores, hb, h.err_done, hidle, h.idle_list hidle⟩

/-- The end of a command leaves an idle block, whatever the sequencer held. -/
theorem finish_resting {s : State} (h : CanonicalStores s.mem) : Resting (finish s) where
  stores := h
  not_busy := rfl
  err_done := by simp
  mpc_idle := rfl
  no_list := rfl

theorem Resting.after_raise_accept {s : State} (h : Resting s) (e : ErrCode) :
    Resting (raise e (accept s)) where
  stores := h.stores
  not_busy := h.not_busy
  err_done := by simp
  mpc_idle := h.mpc_idle
  no_list := h.no_list

theorem resetEvent_resting (s : State) : Resting (resetEvent s) where
  stores := canonicalStores_nil
  not_busy := rfl
  err_done := fun _ => rfl
  mpc_idle := rfl
  no_list := rfl

theorem writeItem_stores {s : State} (h : CanonicalStores s.mem) (a : HostAddr) (v : Byte) :
    CanonicalStores (writeItem (itemAt a) v s).mem := by
  cases hit : itemAt a with
  | store X k =>
    have hk : X.holds (X.base + k) = true :=
      store_holds_iff.mpr ⟨Nat.le_add_right _ _, Nat.add_lt_add_left (itemAt_store hit).1 _⟩
    cases hw : X.hostWritable with
    | true => simpa [writeItem, hw] using h.after_memSet hk v
    | false => simpa [writeItem, hw] using h
  | _ => exact h

/-- A plain host write leaves `STATUS`, `MPC` and the list as they are (20_memory.md R46). -/
theorem writeItem_control (it : Item) (v : Byte) (s : State) :
    (writeItem it v s).status = s.status ∧ (writeItem it v s).mpc = s.mpc ∧
    (writeItem it v s).microOps = s.microOps := by
  cases it with
  | store X k =>
    cases hw : X.hostWritable with
    | true => simp [writeItem, hw]
    | false => simp [writeItem, hw]
  | _ => exact ⟨rfl, rfl, rfl⟩

theorem Resting.after_writeItem {s : State} (h : Resting s) (a : HostAddr) (v : Byte) :
    Resting (writeItem (itemAt a) v s) := by
  obtain ⟨hstatus, hmpc, hlist⟩ := writeItem_control (itemAt a) v s
  exact ⟨writeItem_stores h.stores a v, hstatus ▸ h.not_busy, hstatus ▸ h.err_done, hmpc ▸ h.mpc_idle,
    hlist ▸ h.no_list⟩

/-! ### The invariant of a busy block -/

/-- What the invariant says of a block that runs command i, but for the sequencer's place `MPC` and `POS`. -/
structure Running (i : Instr) (s : State) : Prop where
  stores : CanonicalStores s.mem
  status_eq : s.status = Status.running
  timed : s.params.timing = .timed
  passed : commandError i s = none
  list_eq : s.microOps = opsOf i s

theorem MachineInv.status_of_busy {s : State} (h : MachineInv s) (hb : s.status.busy = true) :
    s.status = Status.running := by
  have hd : s.status.done = false := by
    by_contra hd
    exact h.busy_not_done ⟨hb, Bool.eq_true_of_not_eq_false hd⟩
  have he := h.err_done hd
  cases hs : s.status with
  | mk busy done err => simp_all [Status.running]

theorem MachineInv.running_of_entry {s : State} (h : MachineInv s) {n : Nat} (hm : s.mpc = .entry n) :
    ∃ i, Running i s := by
  have hb : s.status.busy = true := h.busy_iff.mpr (by simp [hm])
  have ht : s.params.timing = .timed := by
    cases ht : s.params.timing with
    | timed => rfl
    | atomic => simp [h.atomic_idle ht] at hb
  obtain ⟨-, i, hc, hl⟩ := h.running n hm
  exact ⟨i, h.stores, h.status_of_busy hb, ht, hc, hl⟩

/-- A running command with the sequencer at an entry of its list meets the invariant. -/
theorem Running.inv {i : Instr} {s : State} {n : Nat} (h : Running i s) (hm : s.mpc = .entry n)
    (hn : n < s.microOps.length)
    (hpos : ∀ r, s.microOps[n]? = some (.perm r) → 1 ≤ s.pos ∧ s.pos ≤ roundCount r) : MachineInv s where
  mem_wf := h.stores.wf
  mem_stores := h.stores.inStores
  busy_iff := by simp [h.status_eq, hm]
  busy_not_done := by simp [h.status_eq]
  err_done := by simp [h.status_eq]
  atomic_idle := by simp [h.timed]
  idle_list := by simp [hm]
  running := fun m hm' => by
    obtain rfl : n = m := by simpa [hm] using hm'
    exact ⟨hn, i, h.passed, h.list_eq⟩
  pos_range := fun m r hm' hr => by
    obtain rfl : n = m := by simpa [hm] using hm'
    exact hpos r hr

/-- A command goes on running where `STATUS`, the list, the parameters, the lengths and `PRESENT` are kept. -/
theorem Running.of_frame {i : Instr} {s t : State} (h : Running i s) (hm : CanonicalStores t.mem)
    (hs : t.status = s.status) (hl : t.microOps = s.microOps) (hq : t.params = s.params)
    (hp : t.present = s.present) (ha : t.adlen = s.adlen) (hpt : t.ptlen = s.ptlen) : Running i t where
  stores := hm
  status_eq := hs.trans h.status_eq
  timed := hq ▸ h.timed
  passed := (commandError_congr hp ha hpt).trans h.passed
  list_eq := (hl.trans h.list_eq).trans (opsOf_congr ha hpt).symm

/-- As `MPC` comes to an entry of the list, `POS` is 1 where a permutation starts (42_control.md R172). -/
theorem Running.goTo_inv {i : Instr} {s : State} {n : Nat} (h : Running i s) (hn : n < s.microOps.length) :
    MachineInv (goTo n s) := by
  have hrun : Running i (goTo n s) := h.of_frame h.stores rfl rfl rfl rfl rfl rfl
  refine hrun.inv rfl hn (fun r hr => ?_)
  have hp : (goTo n s).pos = 1 := by
    show posAt s.microOps n s.pos = 1
    rw [posAt, show s.microOps[n]? = some (.perm r) from hr]
  exact ⟨hp.ge, hp.le.trans (roundCount_pos r)⟩

theorem Running.leave_inv {i : Instr} {s : State} (h : Running i s) (n : Nat) : MachineInv (leave n s) := by
  rcases leave_cases n s with ⟨hn, heq⟩ | ⟨-, heq⟩
  · exact heq ▸ h.goTo_inv hn
  · exact heq ▸ (finish_resting h.stores).inv

theorem Running.after_permRound {i : Instr} {s : State} (h : Running i s) (r : Rounds) :
    Running i (permRound r s) :=
  h.of_frame h.stores rfl rfl rfl rfl rfl rfl

theorem Running.after_run {i : Instr} {s : State} {o : MicroOp} (h : Running i s) (ho : o ∈ s.microOps) :
    Running i (o.run s) :=
  h.of_frame (h.stores.after_run h.passed (h.list_eq ▸ ho) rfl) (microOp_run_status o s)
    (microOp_run_microOps o s) (microOp_run_params o s) (microOp_run_present o s) (microOp_run_adlen o s)
    (microOp_run_ptlen o s)

theorem opsOf_length_pos (i : Instr) (s : State) : 0 < (opsOf i s).length := by
  cases i with
  | encrypt => simp [opsOf, encryptOps]
  | _ => exact Nat.one_pos

theorem start_inv {i : Instr} {s : State} (h : CanonicalStores s.mem) (ht : s.params.timing = .timed)
    (hc : commandError i s = none) : MachineInv (start i s) := by
  have hrun : Running i ((s.setSequencer s.mpc s.pos (opsOf i s)).setStatus Status.running) :=
    ⟨h, rfl, ht, (commandError_congr rfl rfl rfl).trans hc, (opsOf_congr rfl rfl).symm⟩
  exact hrun.goTo_inv (opsOf_length_pos i s)

/-! ### The operations of a step -/

/-- The invariant says nothing of the host's side of the port. -/
theorem MachineInv.hostSide {s : State} (h : MachineInv s) (l : List HostAction) (r : List Byte) :
    MachineInv { s with inputs := l, reads := r } where
  mem_wf := h.mem_wf
  mem_stores := h.mem_stores
  busy_iff := h.busy_iff
  busy_not_done := h.busy_not_done
  err_done := h.err_done
  atomic_idle := h.atomic_idle
  idle_list := h.idle_list
  running := fun n hm => by
    obtain ⟨hn, i, hc, hl⟩ := h.running n hm
    exact ⟨hn, i, (commandError_congr rfl rfl rfl).trans hc, hl.trans (opsOf_congr rfl rfl).symm⟩
  pos_range := h.pos_range

theorem MachineInv.after_setInputs {s : State} (h : MachineInv s) (l : List HostAction) :
    MachineInv (s.setInputs l) :=
  h.hostSide l s.reads

theorem MachineInv.after_recordRead {s : State} (h : MachineInv s) (a : HostAddr) :
    MachineInv (recordRead a s) :=
  h.hostSide s.inputs _

/-- A turn of the block keeps the invariant (42_control.md R172). -/
theorem MachineInv.after_blockTurn {s : State} (h : MachineInv s) : MachineInv (blockTurn s) := by
  rcases blockTurn_cases s with ⟨-, heq⟩ | ⟨n, -, -, heq⟩ | ⟨n, r, hm, -, -, heq⟩ |
    ⟨n, r, hm, ho, hr, heq⟩ | ⟨n, o, hm, ho, -, heq⟩
  · rwa [heq]
  · exact heq ▸ (finish_resting h.stores).inv
  · obtain ⟨i, hrun⟩ := h.running_of_entry hm
    exact heq ▸ (hrun.after_permRound r).leave_inv n
  · obtain ⟨i, hrun⟩ := h.running_of_entry hm
    have hn : n < s.microOps.length := (h.running n hm).1
    rw [heq]
    refine (hrun.after_permRound r).inv hm hn (fun r' hr' => ?_)
    obtain rfl : r = r' := by simpa using ho.symm.trans hr'
    exact ⟨Nat.le_add_left 1 s.pos, hr⟩
  · obtain ⟨i, hrun⟩ := h.running_of_entry hm
    exact heq ▸ (hrun.after_run (List.mem_of_getElem? ho)).leave_inv n

theorem MachineInv.after_pollOnce {s : State} (h : MachineInv s) : MachineInv (pollOnce s) := by
  unfold pollOnce
  split
  · exact ((h.after_setInputs _).after_recordRead statusAddr).after_blockTurn
  · exact h.after_recordRead statusAddr

/-- A submission to an idle block keeps the invariant in both views (42_control.md R170 to R172). -/
theorem Resting.submit_inv {c : Byte} {s t : State} (h : Resting s) (hsub : submit c s = .next t) :
    MachineInv t := by
  rcases submit_cases hsub with ⟨-, -, rfl⟩ | ⟨-, e, -, -, rfl⟩ | ⟨i, -, hc, -, rfl⟩ | ⟨i, -, hc, ht, rfl⟩
  · exact (h.after_raise_accept .illegalCommand).inv
  · exact (h.after_raise_accept e).inv
  · have hstores : CanonicalStores (accept s).mem := h.stores
    exact (finish_resting (hstores.after_runOps hc rfl)).inv
  · exact start_inv h.stores ht ((commandError_congr rfl rfl rfl).trans hc)

/-- Settles O4, by the ways a step goes: the operation each of them runs keeps the invariant. -/
theorem everyStepKeepsInvariant : Obligations.EveryStepKeepsInvariant := by
  intro s t h hstep
  rcases step_cases hstep with ⟨-, rfl⟩ | ⟨rest, -, rfl⟩ | ⟨rest, -, rfl⟩ | ⟨rest, -, rfl⟩ |
    ⟨a, rest, -, rfl⟩ | ⟨-, -, rest, -, -, rfl⟩ | ⟨a, v, rest, -, hb, -, hsub⟩ | ⟨a, v, rest, -, hb, -, rfl⟩
  · exact h.after_blockTurn
  · exact (h.after_setInputs rest).after_blockTurn
  · exact (resetEvent_resting _).inv
  · exact (h.after_setInputs rest).after_pollOnce
  · exact (h.after_setInputs rest).after_recordRead a
  · exact h.after_setInputs rest
  · exact ((h.after_setInputs rest).resting hb).submit_inv hsub
  · exact (((h.after_setInputs rest).resting hb).after_writeItem a v).inv

/-! ### Reset and the status of a busy block -/

/-- Settles O3: what a reset event leaves meets the invariant, and of `State.reset` it leaves `State.reset`. -/
theorem invariantHoldsAtReset : Obligations.InvariantHoldsAtReset :=
  (resetEvent_resting State.reset).inv

/-- An idle block whose host does nothing stays as it is (70_reset_and_hazards.md R230). -/
theorem step_of_idle_waiting {s : State} (hi : s.inputs = []) (hm : s.mpc = .idle) : step s = .next s := by
  simp [step, hi, blockTurn, hm]

/-- Settles O1: the values R29 gives are those `State.reset` is made of, and its stores list no byte. -/
theorem resetLeavesZeroAndIdle : Obligations.ResetLeavesZeroAndIdle :=
  ⟨rfl, fun _ _ _ => rfl, rfl, rfl, rfl, rfl, by decide, rfl, step_of_idle_waiting rfl rfl⟩

theorem hostRead_statusAddr (s : State) : hostRead statusAddr s = statusByte s.status := by
  have hitem : itemAt statusAddr = .status := by decide
  rw [hostRead, if_pos hitem]

/-- Settles O41: the invariant leaves one value of `STATUS` to a busy block, the one it is started with. -/
theorem busyStatusReadsOne : Obligations.BusyStatusReadsOne := by
  intro s h hb
  calc hostRead statusAddr s
      = statusByte s.status := hostRead_statusAddr s
    _ = statusByte Status.running := by rw [h.status_of_busy hb]
    _ = 0x01#8 := by decide

end Sys2Proof.Machine
end

section
/-! What the block leaves unchanged of the operands the host wrote (41_aead_orchestrator.md R143). -/

namespace Sys2Proof.Machine

/-- `SameOperands` by stores: the operand stores are those the host may write (10_state.md R10). -/
theorem sameOperands_of_reads {s t : State} (ha : t.adlen = s.adlen) (ht : t.ptlen = s.ptlen)
    (hp : t.present = s.present)
    (hr : ∀ (X : Store) (k : Nat), X.hostWritable = true → k < X.size → readStore X k t = readStore X k s) :
    SameOperands s t :=
  ⟨ha, ht, hp, fun k => hr .key k rfl, fun k => hr .nonce k rfl, fun k => hr .ad k rfl, fun k => hr .pt k rfl⟩

theorem sameOperands_of_mem {s t : State} (ha : t.adlen = s.adlen) (ht : t.ptlen = s.ptlen)
    (hp : t.present = s.present) (hm : t.mem = s.mem) : SameOperands s t :=
  sameOperands_of_reads ha ht hp (fun X k _ _ => readStore_congr hm X k)

theorem SameOperands.refl (s : State) : SameOperands s s := sameOperands_of_mem rfl rfl rfl rfl

theorem SameOperands.ptlen {s t : State} (h : SameOperands s t) : t.ptlen = s.ptlen := h.2.1

theorem SameOperands.trans {s t u : State} (h : SameOperands s t) (h' : SameOperands t u) :
    SameOperands s u := by
  obtain ⟨ha, ht, hp, hkey, hnonce, had, hpt⟩ := h
  obtain ⟨ha', ht', hp', hkey', hnonce', had', hpt'⟩ := h'
  exact ⟨ha'.trans ha, ht'.trans ht, hp'.trans hp, fun k hk => (hkey' k hk).trans (hkey k hk),
    fun k hk => (hnonce' k hk).trans (hnonce k hk), fun k hk => (had' k hk).trans (had k hk),
    fun k hk => (hpt' k hk).trans (hpt k hk)⟩

/-- No byte of an operand store lies in a result store (20_memory.md R44). -/
theorem not_holds_of_hostWritable {X Y : Store} {k : Nat} (hX : X.hostWritable = true)
    (hY : Y.hostWritable = false) (hk : k < X.size) : ¬ Y.holds (X.base + k) = true := by
  intro hh
  obtain ⟨hlo, hhi⟩ := store_holds_iff.mp hh
  obtain ⟨j, hj⟩ := Nat.exists_eq_add_of_le hlo
  obtain ⟨rfl, -⟩ := store_ranges_disjoint hk (by omega) hj
  simp [hX] at hY

/-- A micro-operation of a command that passed its tests stores to the result stores only. -/
theorem run_sameOperands {i : Instr} {s t : State} {o : MicroOp} (hc : commandError i s = none)
    (ho : o ∈ opsOf i s) (hl : t.ptlen = s.ptlen) : SameOperands t (o.run t) := by
  refine sameOperands_of_reads (microOp_run_adlen o t) (microOp_run_ptlen o t) (microOp_run_present o t) ?_
  intro X k hX hk
  refine microOp_run_memGet (fun hst => ?_)
  rcases opStores_in_results hc ho hl hst with hct | htag
  · exact not_holds_of_hostWritable hX rfl hk hct
  · exact not_holds_of_hostWritable hX rfl hk htag

theorem runOps_sameOperands {i : Instr} {s t : State} (hc : commandError i s = none)
    (hl : t.ptlen = s.ptlen) : SameOperands t (runOps (opsOf i s) t) :=
  runOps_induction (P := SameOperands t)
    (fun _ ho _ hu => hu.trans (run_sameOperands hc ho (hu.ptlen.trans hl))) (.refl t)

theorem leave_sameOperands (n : Nat) (s : State) : SameOperands s (leave n s) := by
  rcases leave_cases n s with ⟨-, heq⟩ | ⟨-, heq⟩ <;> exact heq ▸ sameOperands_of_mem rfl rfl rfl rfl

theorem permRound_sameOperands (r : Rounds) (s : State) : SameOperands s (permRound r s) :=
  sameOperands_of_mem rfl rfl rfl rfl

theorem MachineInv.blockTurn_sameOperands {s : State} (h : MachineInv s) : SameOperands s (blockTurn s) := by
  rcases blockTurn_cases s with ⟨-, heq⟩ | ⟨n, -, -, heq⟩ | ⟨n, r, -, -, -, heq⟩ | ⟨n, r, -, -, -, heq⟩ |
    ⟨n, o, hm, ho, -, heq⟩
  · rw [heq]
    exact .refl s
  · exact heq ▸ sameOperands_of_mem rfl rfl rfl rfl
  · exact heq ▸ (permRound_sameOperands r s).trans (leave_sameOperands n _)
  · exact heq ▸ permRound_sameOperands r s
  · obtain ⟨i, hrun⟩ := h.running_of_entry hm
    have hmem : o ∈ opsOf i s := hrun.list_eq ▸ List.mem_of_getElem? ho
    exact heq ▸ (run_sameOperands hrun.passed hmem rfl).trans (leave_sameOperands n _)

theorem MachineInv.pollOnce_sameOperands {s : State} (h : MachineInv s) : SameOperands s (pollOnce s) := by
  unfold pollOnce
  split
  · exact ((h.after_setInputs _).after_recordRead statusAddr).blockTurn_sameOperands
  · exact sameOperands_of_mem rfl rfl rfl rfl

theorem submit_sameOperands {c : Byte} {s t : State} (hsub : submit c s = .next t) : SameOperands s t := by
  rcases submit_cases hsub with ⟨-, -, rfl⟩ | ⟨-, e, -, -, rfl⟩ | ⟨i, -, hc, -, rfl⟩ | ⟨i, -, -, -, rfl⟩
  · exact sameOperands_of_mem rfl rfl rfl rfl
  · exact sameOperands_of_mem rfl rfl rfl rfl
  · exact runOps_sameOperands (t := accept s) hc rfl
  · exact sameOperands_of_mem rfl rfl rfl rfl

/-- Settles O47, by the ways a step goes. The invariant is what confines a turn's stores to `CT` and `TAG`: the
list that runs is that of a command whose lengths passed the test. -/
theorem blockNeverWritesOperands : Obligations.BlockNeverWritesOperands := by
  intro s t h hstep hwrite hreset
  rcases step_cases hstep with ⟨-, rfl⟩ | ⟨rest, -, rfl⟩ | ⟨rest, hin, -⟩ | ⟨rest, -, rfl⟩ |
    ⟨a, rest, -, rfl⟩ | ⟨-, -, rest, -, -, rfl⟩ | ⟨a, v, rest, -, -, -, hsub⟩ | ⟨a, v, rest, hin, -, hcmd, -⟩
  · exact h.blockTurn_sameOperands
  · exact (h.after_setInputs rest).blockTurn_sameOperands
  · exact absurd hin (hreset rest)
  · exact (h.after_setInputs rest).pollOnce_sameOperands
  · exact sameOperands_of_mem rfl rfl rfl rfl
  · exact sameOperands_of_mem rfl rfl rfl rfl
  · exact submit_sameOperands (s := s.setInputs rest) hsub
  · exact absurd (itemAt_eq_cmd.mpr (hwrite a v rest hin)) hcmd

end Sys2Proof.Machine
end

section
/-! The byte order of words, 20_memory.md R40 and R41: bit, byte and word views of `bytes8` and `be64`. -/

namespace Sys2Proof.Machine

theorem bytes8_eq_map (w : Word) : bytes8 w = (List.range 8).map (byteOf w) := rfl

theorem getD_bytes8 (w : Word) {k : Nat} (hk : k < 8) : (bytes8 w).getD k 0#8 = byteOf w k := by
  simp [bytes8_eq_map, hk]

theorem getLsbD_byteOf (w : Word) (k : Nat) {b : Nat} (hb : b < 8) :
    (byteOf w k).getLsbD b = w.getLsbD (56 - 8 * k + b) := by
  simp [byteOf, hb]

/-- Bit b of byte k, in the word the bytes make. -/
theorem getLsbD_wordOfBytes (f : Nat → Byte) {k b : Nat} (hk : k < 8) (hb : b < 8) :
    (wordOfBytes f).getLsbD (56 - 8 * k + b) = (f k).getLsbD b := by
  unfold wordOfBytes
  simp only [BitVec.getLsbD_append]
  interval_cases k <;> simp (disch := omega) only [if_pos, if_neg] <;> congr 1 <;> omega

/-- Two words with the same bytes are one word. -/
theorem word_ext {v w : Word} (h : ∀ k, k < 8 → byteOf v k = byteOf w k) : v = w := by
  apply BitVec.eq_of_getLsbD_eq
  intro n hn
  have hplace : n = 56 - 8 * (7 - n / 8) + n % 8 := by omega
  rw [hplace, ← getLsbD_byteOf v _ (by omega), ← getLsbD_byteOf w _ (by omega), h _ (by omega)]

theorem byteOf_wordOfBytes (f : Nat → Byte) {k : Nat} (hk : k < 8) : byteOf (wordOfBytes f) k = f k := by
  apply BitVec.eq_of_getLsbD_eq
  intro b hb
  rw [getLsbD_byteOf _ _ hb, getLsbD_wordOfBytes f hk hb]

theorem byteOf_be64 (bs : List Byte) {k : Nat} (hk : k < 8) : byteOf (be64 bs) k = bs.getD k 0#8 :=
  byteOf_wordOfBytes _ hk

@[simp] theorem be64_bytes8 (w : Word) : be64 (bytes8 w) = w :=
  word_ext (fun k hk => by rw [byteOf_be64 _ hk, getD_bytes8 w hk])

theorem bytes8_be64 {bs : List Byte} (h : bs.length = 8) : bytes8 (be64 bs) = bs := by
  refine List.ext_getElem ((length_bytes8 _).trans h.symm) (fun k hk hk' => ?_)
  have hlt : k < 8 := hk
  rw [← List.getD_eq_getElem _ 0#8 hk, ← List.getD_eq_getElem _ 0#8 hk', getD_bytes8 _ hlt, byteOf_be64 _ hlt]

/-- A byte appended below a bit vector is a base-256 digit. -/
theorem toNat_append_byte {n : Nat} (w : BitVec n) (v : Byte) :
    (w ++ v).toNat = w.toNat * 2 ^ 8 + v.toNat := by
  rw [BitVec.toNat_append, ← Nat.shiftLeft_add_eq_or_of_lt v.isLt, Nat.shiftLeft_eq]

theorem toNat_be64 (bs : List Byte) :
    (be64 bs).toNat = ((List.range 8).map (fun k => (bs.getD k 0#8).toNat * 2 ^ (56 - 8 * k))).sum := by
  simp only [be64, wordOfBytes, toNat_append_byte, List.range_succ, List.range_zero, List.nil_append,
    List.map_append, List.map_cons, List.map_nil, List.sum_append, List.sum_cons, List.sum_nil]
  omega

/-- Settles O24, from the bits of a word's bytes and the bytes of the word they make. -/
theorem bigEndianBothWays : Obligations.BigEndianBothWays :=
  ⟨fun bs _ => toNat_be64 bs,
    fun w k _ hk hb => by rw [getD_bytes8 w hk, getLsbD_byteOf w k hb],
    be64_bytes8, fun _ => bytes8_be64⟩

theorem byteOf_setByteOf_same (w : Word) (v : Byte) {k : Nat} (hk : k < 8) :
    byteOf (setByteOf w k v) k = v := by
  rw [setByteOf, byteOf_be64 _ hk]
  simp [hk]

theorem byteOf_setByteOf_other (w : Word) (v : Byte) {k j : Nat} (hj : j < 8) (hjk : k ≠ j) :
    byteOf (setByteOf w k v) j = byteOf w j := by
  rw [setByteOf, byteOf_be64 _ hj, List.getD_eq_getElem?_getD, List.getElem?_set_ne hjk,
    ← List.getD_eq_getElem?_getD, getD_bytes8 w hj]

@[simp] theorem Sponge.get_set_same (X : Sponge) (i : Fin 5) (w : Word) : (X.set i w).get i = w := by
  fin_cases i <;> rfl

theorem Sponge.get_set_other (X : Sponge) {i j : Fin 5} (w : Word) (h : i ≠ j) :
    (X.set i w).get j = X.get j := by
  fin_cases i <;> fin_cases j <;> simp [Sponge.get, Sponge.set] at h ⊢

@[simp] theorem Sponge.set_get (X : Sponge) (i : Fin 5) : X.set i (X.get i) = X := by
  fin_cases i <;> rfl

@[simp] theorem Sponge.set_set (X : Sponge) (i : Fin 5) (v w : Word) : (X.set i v).set i w = X.set i w := by
  fin_cases i <;> rfl

end Sys2Proof.Machine
end

section
/-! The address map, 20_memory.md R44: which addresses name an item. -/

namespace Sys2Proof.Machine

/-- The addresses R44 gives an item; a reserved one is one of the listed ranges. -/
def Item.namedBy (n : Nat) : Item → Prop
  | .sponge i k => n = 8 * i.val + k.val
  | .cmd        => n = 0x030
  | .status     => n = 0x031
  | .adlen      => n = 0x032
  | .ptlen      => n = 0x033
  | .present    => n = 0x034
  | .store X k  => k < X.size ∧ X.base + k = n
  | .reserved   => (0x028 ≤ n ∧ n ≤ 0x02f) ∨ (0x035 ≤ n ∧ n ≤ 0x03f) ∨ (0x070 ≤ n ∧ n ≤ 0x0ff) ∨
      (0x1fe ≤ n ∧ n ≤ 0x1ff) ∨ (0x2fe ≤ n ∧ n ≤ 0x2ff) ∨ (0x3fe ≤ n ∧ n ≤ 0x3ff)

/-- The stores' ranges, in the bounds of R44. -/
theorem no_store_holds_iff {n : Nat} : (∀ X : Store, ¬ X.holds n = true) ↔
    (n < 0x040 ∨ 0x06f < n) ∧ (n < 0x100 ∨ 0x1fd < n) ∧ (n < 0x200 ∨ 0x2fd < n) ∧ (n < 0x300 ∨ 0x3fd < n) := by
  constructor
  · intro h
    have := h .key
    have := h .nonce
    have := h .tag
    have := h .ad
    have := h .pt
    have := h .ct
    simp only [store_holds_iff, Store.base, Store.size] at *
    omega
  · intro h X hX
    rw [store_holds_iff] at hX
    cases X <;> simp only [Store.base, Store.size] at hX <;> omega

theorem mem_storeAll (X : Store) : X ∈ Store.all := by
  cases X <;> decide

theorem itemAt_of_no_store {a : HostAddr} (h : ∀ X : Store, ¬ X.holds a.toNat = true) :
    itemAt a = lowItem a.toNat := by
  have hnone : Store.all.find? (fun X => X.holds a.toNat) = none :=
    List.find?_eq_none.mpr (fun X _ => h X)
  simp [itemAt, hnone]

/-- The store that holds an address is the one the map gives: the stores do not overlap. -/
theorem itemAt_of_store {a : HostAddr} {X : Store} {k : Nat} (hk : k < X.size) (ha : X.base + k = a.toNat) :
    itemAt a = .store X k := by
  have hX : X.holds a.toNat = true := store_holds_iff.mpr (by omega)
  have hsome : (Store.all.find? (fun Y => Y.holds a.toNat)).isSome = true :=
    List.find?_isSome.mpr ⟨X, mem_storeAll X, hX⟩
  obtain ⟨Y, hY⟩ := Option.isSome_iff_exists.mp hsome
  have hitem : itemAt a = .store Y (a.toNat - Y.base) := by simp [itemAt, hY]
  obtain ⟨hlt, hbase⟩ := itemAt_store hitem
  obtain ⟨rfl, hk'⟩ := store_ranges_disjoint hk hlt (ha.trans hbase.symm)
  rw [hitem, ← hk']

theorem lowItem_eq_reserved {n : Nat} (h : 0x028 ≤ n ∧ (n < 0x030 ∨ 0x034 < n)) : lowItem n = .reserved := by
  simp only [lowItem]
  rw [dif_neg (by omega), if_neg (by omega), if_neg (by omega), if_neg (by omega), if_neg (by omega),
    if_neg (by omega)]

theorem lowItem_sponge (i : Fin 5) (k : Fin 8) : lowItem (8 * i.val + k.val) = .sponge i k := by
  rw [lowItem, dif_pos (by omega)]
  congr 1
  · exact Fin.ext (show (8 * i.val + k.val) / 8 = i.val by omega)
  · exact Fin.ext (show (8 * i.val + k.val) % 8 = k.val by omega)

/-- Below the stores the map is `lowItem`. -/
theorem itemAt_low {a : HostAddr} {n : Nat} (ha : a.toNat = n) (hn : n < 0x040) : itemAt a = lowItem n :=
  ha ▸ itemAt_of_no_store (no_store_holds_iff.mpr (by omega))

theorem itemAt_of_namedBy {a : HostAddr} {it : Item} (h : it.namedBy a.toNat) : itemAt a = it := by
  cases it with
  | store X k => exact itemAt_of_store h.1 h.2
  | sponge i k => exact (itemAt_low h (by omega)).trans (lowItem_sponge i k)
  | reserved =>
    simp only [Item.namedBy] at h
    rw [itemAt_of_no_store (no_store_holds_iff.mpr (by omega)), lowItem_eq_reserved (by omega)]
  | cmd => exact itemAt_low h (by decide)
  | status => exact itemAt_low h (by decide)
  | adlen => exact itemAt_low h (by decide)
  | ptlen => exact itemAt_low h (by decide)
  | present => exact itemAt_low h (by decide)

/-- Every address is named by some item. -/
theorem exists_namedBy (a : HostAddr) : ∃ it : Item, it.namedBy a.toNat := by
  by_cases hX : ∃ X : Store, X.holds a.toNat = true
  · obtain ⟨X, hX⟩ := hX
    rw [store_holds_iff] at hX
    exact ⟨.store X (a.toNat - X.base), by omega, by omega⟩
  · have hlow := no_store_holds_iff.mp (not_exists.mp hX)
    have hlt : a.toNat < 1024 := a.isLt
    by_cases hs : a.toNat < 0x028
    · exact ⟨.sponge ⟨a.toNat / 8, by omega⟩ ⟨a.toNat % 8, by omega⟩, (Nat.div_add_mod _ 8).symm⟩
    by_cases hr : Item.reserved.namedBy a.toNat
    · exact ⟨.reserved, hr⟩
    simp only [Item.namedBy] at hr
    have hreg : a.toNat = 0x030 ∨ a.toNat = 0x031 ∨ a.toNat = 0x032 ∨ a.toNat = 0x033 ∨ a.toNat = 0x034 := by
      omega
    obtain h | h | h | h | h := hreg
    · exact ⟨.cmd, h⟩
    · exact ⟨.status, h⟩
    · exact ⟨.adlen, h⟩
    · exact ⟨.ptlen, h⟩
    · exact ⟨.present, h⟩

/-- The map of R44, both ways. -/
theorem itemAt_eq_iff {a : HostAddr} {it : Item} : itemAt a = it ↔ it.namedBy a.toNat := by
  refine ⟨fun h => ?_, itemAt_of_namedBy⟩
  obtain ⟨it', hit'⟩ := exists_namedBy a
  rwa [← h, itemAt_of_namedBy hit']

end Sys2Proof.Machine
end

section
/-! Host accesses, 20_memory.md R45 to R47 and R55: what one read or write of the port answers, and what a read
answers after a write. -/

namespace Sys2Proof.Machine

/-! ### No step stops -/

theorem submit_answers_next (c : Byte) (s : State) : ∃ t, submit c s = .next t := by
  unfold submit
  cases decode c with
  | illegal why => exact ⟨_, rfl⟩
  | command i =>
    cases s.params.timing with
    | atomic => exact ⟨_, exec_eq i (accept s)⟩
    | timed => exact ⟨_, rfl⟩

theorem hostWrite_answers_next (a : HostAddr) (v : Byte) (s : State) : ∃ t, hostWrite a v s = .next t := by
  unfold hostWrite
  split
  · exact ⟨_, rfl⟩
  · split
    · exact submit_answers_next v s
    · exact ⟨_, rfl⟩

/-- Settles O5, by the actions a step may take from the line: only a write to `CMD` runs a command, and a command
in one event answers a next state. -/
theorem everyStepAnswersNext : Obligations.EveryStepAnswersNext := by
  intro s
  unfold step
  cases s.inputs with
  | nil => exact ⟨_, rfl⟩
  | cons h rest =>
    cases h with
    | write a v => exact hostWrite_answers_next a v _
    | read a => exact ⟨_, rfl⟩
    | poll => exact ⟨_, rfl⟩
    | wait => exact ⟨_, rfl⟩
    | reset => exact ⟨_, rfl⟩

/-! ### Busy: the host is ignored -/

theorem step_write_busy {s : State} {a : HostAddr} {v : Byte} {rest : List HostAction}
    (h : s.inputs = .write a v :: rest) (hb : s.status.busy = true) : step s = .next (s.setInputs rest) := by
  simp [step, h, perform, hostWrite, hb]

theorem itemAt_eq_status {a : HostAddr} : itemAt a = .status ↔ a = statusAddr :=
  itemAt_eq_iff.trans (BitVec.toNat_inj (y := statusAddr))

theorem hostRead_busy {s : State} {a : HostAddr} (hb : s.status.busy = true) (ha : a ≠ statusAddr) :
    hostRead a s = 0x00#8 := by
  rw [hostRead, if_neg (mt itemAt_eq_status.mp ha), if_pos hb]

/-- Settles O40: the write is dropped, and a read's step records what the port answers while busy. -/
theorem busyBlockIgnoresHost : Obligations.BusyBlockIgnoresHost := by
  intro s rest hb
  refine ⟨fun a v h => step_write_busy h hb, fun a h ha => ?_, fun h => ?_⟩
  · rw [step_read h, hostRead_busy hb ha]
  · have hst : hostRead 0x031#10 s = statusByte s.status := hostRead_statusAddr s
    rw [step_read h, hst]

/-! ### Idle: what a read answers -/

theorem hostRead_idle {s : State} (hb : s.status.busy = false) (a : HostAddr) :
    hostRead a s = readItem (itemAt a) s := by
  unfold hostRead
  split
  · next hst => rw [hst, readItem]
  · rw [hb, if_neg Bool.false_ne_true]

/-- A read depends on the block only, not on the host's side of the port. -/
theorem hostRead_hostSide (a : HostAddr) (s : State) (l : List HostAction) (r : List Byte) :
    hostRead a { s with inputs := l, reads := r } = hostRead a s := rfl

theorem hostRead_of_namedBy {s : State} (hb : s.status.busy = false) {a : HostAddr} {it : Item}
    (h : it.namedBy a.toNat) : hostRead a s = readItem it s := by
  rw [hostRead_idle hb, itemAt_of_namedBy h]

theorem hostRead_sponge {s : State} (hb : s.status.busy = false) (i : Fin 5) {k : Nat} (hk : k < 8) :
    hostRead (BitVec.ofNat 10 (8 * i.val + k)) s = byteOf (s.S.get i) k := by
  have hname : (Item.sponge i ⟨k, hk⟩).namedBy (BitVec.ofNat 10 (8 * i.val + k)).toNat := by
    rw [BitVec.toNat_ofNat, Nat.mod_eq_of_lt (by omega)]
    rfl
  rw [hostRead_of_namedBy hb hname, readItem]

theorem store_end_le (X : Store) : X.base + X.size ≤ 1024 := by
  cases X <;> decide

theorem hostRead_store {s : State} (hb : s.status.busy = false) (X : Store) {k : Nat} (hk : k < X.size) :
    hostRead (BitVec.ofNat 10 (X.base + k)) s = readStore X k s := by
  have hend := store_end_le X
  have hname : (Item.store X k).namedBy (BitVec.ofNat 10 (X.base + k)).toNat := by
    rw [BitVec.toNat_ofNat, Nat.mod_eq_of_lt (by omega)]
    exact ⟨hk, rfl⟩
  rw [hostRead_of_namedBy hb hname, readItem]

/-- Settles O43, from the address map: each address read is one that names the item. -/
theorem hostReadMap : Obligations.HostReadMap := by
  refine ⟨fun s hb => ⟨fun i k hk => hostRead_sponge hb i hk, hostRead_of_namedBy hb (it := .cmd) rfl,
    hostRead_statusAddr s, hostRead_of_namedBy hb (it := .adlen) rfl, hostRead_of_namedBy hb (it := .ptlen) rfl,
    ?_, fun k => hostRead_store hb .key, fun k => hostRead_store hb .nonce, fun k => hostRead_store hb .tag,
    fun k => hostRead_store hb .ad, fun k => hostRead_store hb .pt, fun k => hostRead_store hb .ct,
    fun a ha => ?_⟩, fun s a hb => hostRead_busy hb, hostRead_statusAddr, fun a => itemAt_eq_iff,
    fun s a rest => step_read⟩
  · have hp : hostRead 0x034#10 s = readItem .present s := hostRead_of_namedBy hb rfl
    rw [hp, readItem, BitVec.setWidth_eq_append (by decide)]
    rfl
  · rw [hostRead_idle hb, ha, readItem]

/-! ### Idle: a write and then a read -/

/-- What a host write to an item leaves there (20_memory.md R46): the byte, `PRESENT` its bits 5:0, and nothing
where the host may not write. `CMD` keeps no byte. -/
def Item.written (v : Byte) : Item → Option Byte
  | .sponge _ _ => some v
  | .adlen      => some v
  | .ptlen      => some v
  | .present    => some (v &&& 0x3f#8)
  | .store X _  => if X.hostWritable then some v else none
  | .cmd        => none
  | .status     => none
  | .reserved   => none

theorem step_write_idle {s : State} {a : HostAddr} {v : Byte} {rest : List HostAction}
    (h : s.inputs = .write a v :: rest) (hb : s.status.busy = false) (ha : a ≠ cmdAddr) :
    step s = .next (writeItem (itemAt a) v (s.setInputs rest)) := by
  simp [step, h, perform, hostWrite, hb, mt itemAt_eq_cmd.mp ha]

theorem zero_append_low_bits (v : Byte) : 0#2 ++ v.extractLsb' 0 6 = v &&& 0x3f#8 := by
  revert v
  decide

theorem writeItem_mem_wf {s : State} (h : Memory.wf s.mem = true) (it : Item) (v : Byte) :
    Memory.wf (writeItem it v s).mem = true := by
  cases it with
  | store X k =>
    cases hw : X.hostWritable with
    | true => simpa [writeItem, hw] using memSet_wf _ v h
    | false => simpa [writeItem, hw] using h
  | _ => exact h

theorem readItem_writeItem_same {s : State} (h : Memory.wf s.mem = true) (it : Item) (v : Byte) :
    readItem it (writeItem it v s) = (it.written v).getD (readItem it s) := by
  cases it with
  | sponge i k => simp [readItem, writeItem, Item.written, byteOf_setByteOf_same]
  | present => exact zero_append_low_bits v
  | store X k =>
    cases hw : X.hostWritable with
    | true => simpa [readItem, writeItem, Item.written, hw] using readStore_writeStore_same X k v h
    | false => simp [readItem, writeItem, Item.written, hw]
  | _ => rfl

theorem readItem_writeItem_sponge_other {s : State} (v : Byte) {i j : Fin 5} {k l : Fin 8}
    (h : Item.sponge j l ≠ .sponge i k) :
    readItem (.sponge j l) (writeItem (.sponge i k) v s) = readItem (.sponge j l) s := by
  show byteOf ((s.S.set i _).get j) l = byteOf (s.S.get j) l
  by_cases hij : i = j
  · subst hij
    have hkl : k.val ≠ l.val := fun hkl => h (by rw [Fin.ext hkl])
    rw [Sponge.get_set_same, byteOf_setByteOf_other _ _ l.isLt hkl]
  · rw [Sponge.get_set_other _ _ hij]

theorem readItem_writeItem_store_other {s : State} (v : Byte) {X Y : Store} {j k : Nat} (hj : j < X.size)
    (hk : k < Y.size) (h : Item.store Y k ≠ .store X j) :
    readItem (.store Y k) (writeItem (.store X j) v s) = readItem (.store Y k) s := by
  have hplace : Y.base + k ≠ X.base + j := by
    intro heq
    obtain ⟨rfl, rfl⟩ := store_ranges_disjoint hk hj heq
    exact h rfl
  cases hw : X.hostWritable with
  | true => simpa [readItem, writeItem, hw, readStore] using memGet_memSet_other s.mem _ _ v hplace
  | false => simp [readItem, writeItem, hw]

/-- A write to one item leaves what every other item reads. -/
theorem readItem_writeItem_other {s : State} (v : Byte) {a x : HostAddr} (h : itemAt x ≠ itemAt a) :
    readItem (itemAt x) (writeItem (itemAt a) v s) = readItem (itemAt x) s := by
  cases ha : itemAt a with
  | sponge i k =>
    cases hx : itemAt x with
    | sponge j l => exact readItem_writeItem_sponge_other v (by rwa [ha, hx] at h)
    | _ => rfl
  | store X j =>
    cases hx : itemAt x with
    | store Y k =>
      exact readItem_writeItem_store_other v (itemAt_store ha).1 (itemAt_store hx).1 (by rwa [ha, hx] at h)
    | _ => cases hw : X.hostWritable <;> simp [readItem, writeItem, hw]
  | adlen =>
    cases hx : itemAt x with
    | adlen => exact absurd (hx.trans ha.symm) h
    | _ => rfl
  | ptlen =>
    cases hx : itemAt x with
    | ptlen => exact absurd (hx.trans ha.symm) h
    | _ => rfl
  | present =>
    cases hx : itemAt x with
    | present => exact absurd (hx.trans ha.symm) h
    | _ => rfl
  | _ => rfl

/-- Every item but the reserved addresses has one address. -/
theorem Item.namedBy_unique {it : Item} {m n : Nat} (hit : it ≠ .reserved) (hm : it.namedBy m)
    (hn : it.namedBy n) : m = n := by
  cases it with
  | store X k => exact hm.2.symm.trans hn.2
  | reserved => exact absurd rfl hit
  | _ => exact hm.trans hn.symm

theorem readItem_after_write_elsewhere {s : State} (v : Byte) {a x : HostAddr} (h : x ≠ a) :
    readItem (itemAt x) (writeItem (itemAt a) v s) = readItem (itemAt x) s := by
  by_cases hr : itemAt x = .reserved
  · rw [hr, readItem, readItem]
  · refine readItem_writeItem_other v (fun heq => h (BitVec.eq_of_toNat_eq ?_))
    exact Item.namedBy_unique hr (itemAt_eq_iff.mp rfl) (itemAt_eq_iff.mp heq.symm)

/-- What a host write leaves, in the ranges of R44. -/
theorem written_itemAt (a : HostAddr) (v old : Byte) :
    ((itemAt a).written v).getD old =
      if a.toNat ≤ 0x027 ∨ a.toNat = 0x032 ∨ a.toNat = 0x033 ∨ (0x040 ≤ a.toNat ∧ a.toNat ≤ 0x05f) ∨
          (0x100 ≤ a.toNat ∧ a.toNat ≤ 0x1fd) ∨ (0x200 ≤ a.toNat ∧ a.toNat ≤ 0x2fd)
      then v else if a.toNat = 0x034 then v &&& 0x3f#8 else old := by
  have hname : (itemAt a).namedBy a.toNat := itemAt_eq_iff.mp rfl
  cases ha : itemAt a with
  | store X k =>
    rw [ha] at hname
    cases X with
    | key | nonce | ad | pt =>
      simp only [Item.namedBy, Store.base, Store.size] at hname
      rw [if_pos (by omega)]
      rfl
    | tag | ct =>
      simp only [Item.namedBy, Store.base, Store.size] at hname
      rw [if_neg (by omega), if_neg (by omega)]
      rfl
  | sponge _ _ | adlen | ptlen =>
    simp only [ha, Item.namedBy] at hname
    rw [if_pos (by omega)]
    rfl
  | present =>
    simp only [ha, Item.namedBy] at hname
    rw [if_neg (by omega), if_pos hname]
    rfl
  | cmd | status | reserved =>
    simp only [ha, Item.namedBy] at hname
    rw [if_neg (by omega), if_neg (by omega)]
    rfl

/-- Settles O44: the address written answers what the write leaves at its item, and another address names another
item, or none. -/
theorem hostWriteThenRead : Obligations.HostWriteThenRead := by
  intro s a v rest hwf hb ha hin
  have hstatus : (writeItem (itemAt a) v (s.setInputs rest)).status = s.status :=
    (writeItem_control _ _ _).1
  refine ⟨_, step_write_idle hin hb ha, hstatus, writeItem_mem_wf (s := s.setInputs rest) hwf _ v, fun x => ?_⟩
  rw [hostRead_idle (hstatus ▸ hb), hostRead_idle hb]
  have hold : readItem (itemAt x) (s.setInputs rest) = readItem (itemAt x) s := rfl
  by_cases hx : x = a
  · subst hx
    rw [readItem_writeItem_same (s := s.setInputs rest) hwf, hold, written_itemAt]
    simp only [true_and]
  · rw [readItem_after_write_elsewhere v hx, hold]
    simp only [hx, false_and, if_false]

end Sys2Proof.Machine
end

section
/-! The script lines that load or read a string of bytes, 30_encoding.md R77. -/

namespace Sys2Proof.Machine

/-- A read string is n reads, each of the block as it was. -/
theorem run_readString {s : State} {a : HostAddr} {n : Nat} {rest : List HostAction}
    (h : s.inputs = readString a n ++ rest) :
    core.run n s = .next { s with
      inputs := rest,
      reads := s.reads ++ (List.range n).map (fun k => hostRead (a + BitVec.ofNat 10 k) s) } := by
  induction n generalizing s a with
  | zero =>
    subst h
    simp [core, Host.Core.run]
  | succ n ih =>
    rw [run_succ (step_read h), ih rfl]
    have haddr : ∀ k, a + 1#10 + BitVec.ofNat 10 k = a + BitVec.ofNat 10 (k + 1) := by
      intro k
      rw [BitVec.add_assoc, BitVec.add_comm 1#10, ← BitVec.ofNat_add]
    simp only [hostRead_hostSide, haddr, List.range_succ_eq_map, List.map_cons, List.map_map,
      List.append_assoc, List.singleton_append, BitVec.add_zero]
    rfl

/-- Settles O53, by `run_readString`; that the string stays inside the port is not needed, since addresses wrap
alike on both sides. -/
theorem readStringGivesBytesInOrder : Obligations.ReadStringGivesBytesInOrder := by
  intro s a n rest _ h
  have haddr : ∀ k, BitVec.ofNat 10 (a.toNat + k) = a + BitVec.ofNat 10 k := by
    intro k
    rw [BitVec.ofNat_add, BitVec.ofNat_toNat, BitVec.setWidth_eq]
  simp only [haddr]
  refine ⟨_, run_readString h, ?_, rfl⟩
  rw [scriptValue, bytesReadSince_of_append rfl, lineValue_rds (by simp)]

theorem reads_of_wordAddr {s : State} (hb : s.status.busy = false) (i : Fin 5) :
    (List.range 8).map (fun k => hostRead (wordAddr i + BitVec.ofNat 10 k) s) = bytes8 (s.S.get i) := by
  rw [bytes8_eq_map]
  refine List.map_congr_left (fun k hk => ?_)
  rw [wordAddr, ← BitVec.ofNat_add, hostRead_sponge hb i (List.mem_range.mp hk)]

/-- Settles O52: the eight bytes read are those of the word, and `BE64` undoes `BYTES8`. -/
theorem readWordGivesStateWord : Obligations.ReadWordGivesStateWord := by
  intro s i rest hb h
  have hrun := run_readString h
  rw [reads_of_wordAddr hb i] at hrun
  refine ⟨_, hrun, ?_, rfl⟩
  rw [scriptValue, bytesReadSince_of_append rfl, lineValue_rd64 (length_bytes8 _), be64_bytes8]

/-- A write to byte k of `S[i]` of an idle block. -/
theorem step_write_sponge {s : State} {i : Fin 5} {k : Nat} {v : Byte} {rest : List HostAction} (hk : k < 8)
    (hb : s.status.busy = false) (h : s.inputs = .write (BitVec.ofNat 10 (8 * i.val + k)) v :: rest) :
    step s = .next { s with S := s.S.set i (setByteOf (s.S.get i) k v), inputs := rest } := by
  have hitem : itemAt (BitVec.ofNat 10 (8 * i.val + k)) = .sponge i ⟨k, hk⟩ := by
    rw [itemAt_eq_iff, BitVec.toNat_ofNat, Nat.mod_eq_of_lt (by omega)]
    rfl
  have hcmd : BitVec.ofNat 10 (8 * i.val + k) ≠ cmdAddr := by
    rw [Ne, ← itemAt_eq_cmd, hitem]
    simp
  rw [step_write_idle h hb hcmd, hitem]
  rfl

/-- Bytes written from byte k of `S[i]` to its last one replace its end. -/
theorem run_writeString_sponge {s : State} {i : Fin 5} {k : Nat} {bs : List Byte} {rest : List HostAction}
    (hb : s.status.busy = false) (hk : k + bs.length = 8)
    (h : s.inputs = writeString (BitVec.ofNat 10 (8 * i.val + k)) bs ++ rest) :
    core.run bs.length s = .next { s with
      S := s.S.set i (be64 ((bytes8 (s.S.get i)).take k ++ bs)), inputs := rest } := by
  induction bs generalizing s k with
  | nil =>
    obtain rfl : k = 8 := hk
    have hall : (bytes8 (s.S.get i)).take 8 = bytes8 (s.S.get i) := rfl
    have hin : s.inputs = rest := h
    rw [List.append_nil, hall, be64_bytes8, Sponge.set_get, ← hin]
    rfl
  | cons b bs ih =>
    rw [List.length_cons] at hk
    have hlt : k < 8 := by omega
    have haddr : BitVec.ofNat 10 (8 * i.val + k) + 1#10 = BitVec.ofNat 10 (8 * i.val + (k + 1)) :=
      (BitVec.ofNat_add _ _).symm
    have hbytes : (bytes8 (setByteOf (s.S.get i) k b)).take (k + 1) ++ bs
        = (bytes8 (s.S.get i)).take k ++ b :: bs := by
      have htake : ((bytes8 (s.S.get i)).set k b).take (k + 1) = (bytes8 (s.S.get i)).take k ++ [b] := by
        rw [List.take_succ_eq_append_getElem (by simpa using hlt), List.take_set_of_le le_rfl,
          List.getElem_set_self]
      rw [setByteOf, bytes8_be64 (by simp), htake, List.append_assoc, List.singleton_append]
    rw [writeString, haddr] at h
    rw [List.length_cons, run_succ (step_write_sponge hlt hb h)]
    refine (ih (s := { s with S := s.S.set i (setByteOf (s.S.get i) k b), inputs := _ }) (k := k + 1) hb
      (by omega) rfl).trans ?_
    simp only [Sponge.get_set_same, Sponge.set_set, hbytes]

/-- Settles O49: the eight bytes of the word, written from byte 0 up, are all of `S[i]`. -/
theorem writeWordLoadsStateWord : Obligations.WriteWordLoadsStateWord := by
  intro s i w rest hb h
  have hrun := run_writeString_sponge (k := 0) (bs := bytes8 w) hb rfl h
  rwa [List.take_zero, List.nil_append, be64_bytes8] at hrun

end Sys2Proof.Machine
end

section
/-! The timed view of a command, 42_control.md R172 to R174: the turns of its list leave what the one event of the
atomic view leaves, and host reads and writes between them change nothing of the block. -/

namespace Sys2Proof.Machine

/-! ### The turns of a list -/

theorem runOps_setStatus (l : List MicroOp) (s : State) (st : Status) :
    runOps l (s.setStatus st) = (runOps l s).setStatus st := by
  induction l generalizing s with
  | nil => rfl
  | cons o l ih => rw [runOps, microOp_run_setStatus]; exact ih _

theorem runOps_setInputs (l : List MicroOp) (s : State) (ins : List HostAction) :
    runOps l (s.setInputs ins) = (runOps l s).setInputs ins := by
  induction l generalizing s with
  | nil => rfl
  | cons o l ih => rw [runOps, microOp_run_setInputs]; exact ih _

theorem turnsOf_cons (o : MicroOp) (l : List MicroOp) : turnsOf (o :: l) = o.turns + turnsOf l := rfl

/-- From an entry of the list with `l` still to run: `STATUS` as it is before the last turn of `l`, and after it
the block of a command ended with `l` run. -/
theorem turns_rest_of_list {s : State} {n : Nat} {o : MicroOp} {l : List MicroOp} (hm : s.mpc = .entry n)
    (hl : s.microOps.drop n = o :: l) (hp : s.pos = posAt s.microOps n s.pos) :
    (∀ k, k < turnsOf (o :: l) → (turns k s).status = s.status) ∧
    (turns (turnsOf (o :: l)) s).block = (finish (runOps (o :: l) s)).block := by
  induction l generalizing s n o with
  | nil =>
    have ho : s.microOps[n]? = some o := by rw [← List.head?_drop, hl]; rfl
    have hend : s.microOps.length ≤ n + 1 := by
      have := congrArg List.length hl
      simp at this
      omega
    obtain ⟨hbefore, m, p, hlast⟩ := turns_microOp hm ho hp
    have hfinish : turns o.turns s = finish ((o.run s).setSequencer m p s.microOps) := by
      rw [hlast, leave, State.setSequencer_microOps, if_neg (by omega)]
    refine ⟨hbefore, ?_⟩
    calc (turns (turnsOf [o]) s).block
        = (finish ((o.run s).setSequencer m p s.microOps)).block := congrArg State.block hfinish
      _ = (finish (runOps [o] s)).block := block_finish_setSequencer _ _ _ _
  | cons o' l ih =>
    have ho : s.microOps[n]? = some o := by rw [← List.head?_drop, hl]; rfl
    have hdrop : s.microOps.drop (n + 1) = o' :: l := by
      rw [← List.tail_drop, hl]; rfl
    have hmore : n + 1 < s.microOps.length := by
      have := congrArg List.length hdrop
      simp at this
      omega
    obtain ⟨hbefore, m, p, hlast⟩ := turns_microOp hm ho hp
    have hnext : turns o.turns s
        = (o.run s).setSequencer (.entry (n + 1)) (posAt s.microOps (n + 1) p) s.microOps := by
      rw [hlast, leave, State.setSequencer_microOps, if_pos hmore]; rfl
    obtain ⟨hafter, hend⟩ := ih (s := turns o.turns s) (n := n + 1) (o := o')
      (by rw [hnext]; rfl) (by rw [hnext]; exact hdrop) (by rw [hnext]; exact (posAt_posAt _ _ _).symm)
    refine ⟨fun k hk => ?_, ?_⟩
    · by_cases hfirst : k < o.turns
      · exact hbefore k hfirst
      · rw [turnsOf_cons] at hk
        obtain ⟨j, rfl⟩ := Nat.exists_eq_add_of_le (Nat.le_of_not_lt hfirst)
        rw [turns_add, hafter j (by omega), hnext, State.setSequencer_status, microOp_run_status]
    · rw [turnsOf_cons, turns_add, hend, hnext, runOps_setSequencer, block_finish_setSequencer]
      rfl

theorem opsOf_ne_nil (i : Instr) (s : State) : opsOf i s ≠ [] :=
  List.ne_nil_of_length_pos (opsOf_length_pos i s)

/-- The turns of a started command: busy before the last, and then the block of its one event. -/
theorem turns_start (i : Instr) (s : State) :
    (∀ k, k < turnsOf (opsOf i s) → (turns k (start i s)).status = Status.running) ∧
    (turns (turnsOf (opsOf i s)) (start i s)).block = (finish (runOps (opsOf i s) s)).block := by
  obtain ⟨o, l, hl⟩ := List.exists_cons_of_ne_nil (opsOf_ne_nil i s)
  have hstart : start i s
      = (s.setSequencer (.entry 0) (posAt (opsOf i s) 0 s.pos) (opsOf i s)).setStatus Status.running := rfl
  have hrun := turns_rest_of_list (s := start i s) (n := 0) (o := o) (l := l) rfl hl (posAt_posAt _ _ _).symm
  rw [← hl] at hrun
  refine ⟨hrun.1, hrun.2.trans ?_⟩
  rw [hstart, runOps_setStatus, runOps_setSequencer]
  rfl

/-! ### Host accesses between the turns -/

/-- The state whose host's side of the port is another one. -/
def State.setHostSide (s : State) (l : List HostAction) (r : List Byte) : State := (s.setInputs l).setReads r

@[simp] theorem block_setHostSide (s : State) (l : List HostAction) (r : List Byte) :
    (s.setHostSide l r).block = s.block := rfl

theorem status_busy_of_block_eq {s t : State} (h : s.block = t.block) : s.status.busy = t.status.busy :=
  show s.block.status.busy = t.block.status.busy from congrArg (fun b => b.status.busy) h

theorem blockTurn_setHostSide (s : State) (l : List HostAction) (r : List Byte) :
    blockTurn (s.setHostSide l r) = (blockTurn s).setHostSide l r := by
  rw [State.setHostSide, blockTurn_setReads, blockTurn_setInputs, State.setHostSide]

theorem turns_setHostSide (n : Nat) (s : State) (l : List HostAction) (r : List Byte) :
    turns n (s.setHostSide l r) = (turns n s).setHostSide l r := by
  rw [State.setHostSide, turns_setReads, turns_setInputs, State.setHostSide]

/-- A read or a write of a busy block changes the host's side only, a wait is a turn. -/
theorem step_of_busy {s : State} {h : HostAction} {rest : List HostAction} (hin : s.inputs = h :: rest)
    (hb : s.status.busy = true) (hh : h ≠ .poll ∧ h ≠ .reset) :
    ∃ r, step s = .next ((turns ([h].count .wait) s).setHostSide rest r) := by
  cases h with
  | write a v => exact ⟨s.reads, step_write_busy hin hb⟩
  | read a => exact ⟨_, step_read hin⟩
  | wait =>
    refine ⟨s.reads, ?_⟩
    have hstep : step s = .next (blockTurn (s.setInputs rest)) := by rw [step, hin]; rfl
    rw [hstep]
    exact congrArg Host.Outcome.next (blockTurn_setHostSide s rest s.reads)
  | poll => exact absurd rfl hh.1
  | reset => exact absurd rfl hh.2

/-- While the block stays busy, reads, writes and waits are as many turns as there are waits. -/
theorem run_of_busy {s : State} {acts rest : List HostAction} (hin : s.inputs = acts ++ rest)
    (hacts : ∀ h ∈ acts, h ≠ .poll ∧ h ≠ .reset)
    (hbusy : ∀ k, k ≤ acts.count .wait → (turns k s).status.busy = true) :
    ∃ r, core.run acts.length s = .next ((turns (acts.count .wait) s).setHostSide rest r) := by
  induction acts generalizing s with
  | nil =>
    subst hin
    exact ⟨s.reads, rfl⟩
  | cons h acts ih =>
    obtain ⟨r, hstep⟩ := step_of_busy (rest := acts ++ rest) hin (hbusy 0 (Nat.zero_le _)) (hacts h List.mem_cons_self)
    have hcount : (h :: acts).count .wait = [h].count .wait + acts.count .wait :=
      List.count_append (l₁ := [h]) (l₂ := acts)
    obtain ⟨r', hrun⟩ := ih (s := (turns ([h].count .wait) s).setHostSide (acts ++ rest) r) rfl
      (fun h' hh' => hacts h' (List.mem_cons_of_mem _ hh'))
      (fun k hk => by
        rw [turns_setHostSide, ← turns_add]
        exact hbusy _ (by omega))
    refine ⟨r', ?_⟩
    rw [List.length_cons, run_succ hstep, hrun, turns_setHostSide, hcount, turns_add]
    rfl

/-! ### A submitted command -/

theorem step_submit_timed {s : State} {c : Byte} {i : Instr} {rest : List HostAction}
    (hin : s.inputs = .write cmdAddr c :: rest) (hb : s.status.busy = false) (ht : s.params.timing = .timed)
    (hd : decode c = .command i) (hc : commandError i s = none) :
    step s = .next (start i (accept (s.setInputs rest))) := by
  have hc' : commandError i (accept (s.setInputs rest)) = none := (commandError_congr rfl rfl rfl).trans hc
  simp only [step_submit hin hb, submit, hd, State.setInputs_params, ht, acceptTimed, hc']

/-- The block after the one event of the atomic view is the one after the turns of the timed view. -/
theorem turns_start_block {s t : State} {i : Instr} (l : List HostAction) (hc : commandError i s = none)
    (hexec : exec i (accept s) = .next t) :
    (turns (turnsOf (opsOf i s)) (start i (accept (s.setInputs l)))).block = t.block := by
  have hc' : commandError i (accept s) = none := (commandError_congr rfl rfl rfl).trans hc
  have hops : opsOf i (accept s) = opsOf i s := opsOf_congr rfl rfl
  have hopsl : opsOf i (accept (s.setInputs l)) = opsOf i s := opsOf_congr rfl rfl
  have ht : finish (runOps (opsOf i s) (accept s)) = t := by
    rw [exec_of_passed hc', hops] at hexec
    injection hexec
  have hturns := (turns_start i (accept (s.setInputs l))).2
  rw [hopsl] at hturns
  have hinputs : runOps (opsOf i s) (accept (s.setInputs l))
      = (runOps (opsOf i s) (accept s)).setInputs l := runOps_setInputs _ (accept s) l
  rw [hturns, hinputs, ← ht]
  rfl

/-- What the submission of a command leaves in the timed view: its turns to come, the last of which ends where
the one event of the atomic view does. -/
theorem submitted_timed {s t : State} {c : Byte} {i : Instr} {rest : List HostAction}
    (hin : s.inputs = .write cmdAddr c :: rest) (hb : s.status.busy = false) (ht : s.params.timing = .timed)
    (hd : decode c = .command i) (hc : commandError i s = none) (hexec : exec i (accept s) = .next t) :
    ∃ u, step s = .next u ∧ u.inputs = rest ∧
      (∀ k, k < turnsOf (opsOf i s) → (turns k u).status.busy = true) ∧
      (turns (turnsOf (opsOf i s)) u).block = t.block := by
  refine ⟨_, step_submit_timed hin hb ht hd hc, rfl, fun k hk => ?_, turns_start_block rest hc hexec⟩
  have hops : opsOf i (accept (s.setInputs rest)) = opsOf i s := opsOf_congr rfl rfl
  rw [(turns_start i _).1 k (hops ▸ hk), Status.running_busy]

theorem exec_idle_of_passed {i : Instr} {s t : State} (hc : commandError i s = none)
    (hexec : exec i s = .next t) : t.status.busy = false := by
  rw [exec_of_passed hc] at hexec
  injection hexec with ht
  rw [← ht, finish_status, Status.succeeded_busy]

/-- Settles O38: reads and writes between the turns of the started command change the host's side only, and the
turns of its list end where the one event does. -/
theorem timedViewRefinesAtomicView : Obligations.TimedViewRefinesAtomicView := by
  intro s t c i acts rest hb ht hd hc hin hacts hcount hexec
  obtain ⟨u, hstep, hinputs, hbusy, hend⟩ := submitted_timed hin hb ht hd hc hexec
  constructor
  · intro n hn
    have hwaits : (acts.take n).count .wait ≤ acts.count .wait := (List.take_sublist n acts).count_le _
    obtain ⟨r, hrun⟩ := run_of_busy (s := u) (acts := acts.take n) (rest := acts.drop n ++ .wait :: rest)
      (by rw [hinputs, ← List.append_assoc, List.take_append_drop])
      (fun h hh => hacts h (List.mem_of_mem_take hh)) (fun k hk => hbusy k (by omega))
    rw [List.length_take, Nat.min_eq_left hn] at hrun
    exact ⟨_, (run_succ hstep).trans hrun, hbusy _ (by omega)⟩
  · obtain ⟨r, hrun⟩ := run_of_busy hinputs hacts (fun k hk => hbusy k (by omega))
    obtain ⟨r', hlast⟩ := step_of_busy (s := (turns (acts.count .wait) u).setHostSide (.wait :: rest) r) rfl
      (hbusy _ (by omega)) (by decide)
    have hturns : turns ([HostAction.wait].count .wait) ((turns (acts.count .wait) u).setHostSide (.wait :: rest) r)
        = (turns (turnsOf (opsOf i s)) u).setHostSide (.wait :: rest) r := by
      rw [turns_setHostSide, ← turns_add, ← hcount]
      rfl
    rw [hturns] at hlast
    have hpassed : commandError i (accept s) = none := (commandError_congr rfl rfl rfl).trans hc
    refine ⟨_, (run_succ hstep).trans ((run_add hrun).trans (run_succ hlast)), ?_, ?_, rfl⟩
    · calc (turns (turnsOf (opsOf i s)) u).status.busy
          = t.status.busy := status_busy_of_block_eq hend
        _ = false := exec_idle_of_passed hpassed hexec
    · rw [block_setHostSide, block_setHostSide, hend]

end Sys2Proof.Machine
end

section
/-! Command bytes, 30_encoding.md R70 to R75: the decoder and the encoder are inverse to each other, and a byte that
is no command is reported and changes nothing else. -/

namespace Sys2Proof.Machine

/-! ### The decoder and the encoder -/

theorem byteOfFields_fieldsOfByte (c : Byte) : byteOfFields (fieldsOfByte c) = c :=
  (BitVec.extractLsb'_append_extractLsb'_eq_extractLsb' rfl).trans BitVec.extractLsb'_eq_self

theorem fieldsLegal (i : Instr) : Laws.FieldsLegal.Statement i := by
  cases i with
  | perm6 => exact Laws.FieldsLegal.perm6
  | perm8 => exact Laws.FieldsLegal.perm8
  | perm12 => exact Laws.FieldsLegal.perm12
  | encrypt => exact Laws.FieldsLegal.encrypt

theorem decodeFields_fieldsOf (i : Instr) : decodeFields (fieldsOf i) = .command i := by
  cases i <;> rfl

/-- The decoder matches whole fields (R71): a command comes from its own `op` and `arg` only. -/
theorem fieldsOf_of_decodeFields {f : CommandFields} {i : Instr} (h : decodeFields f = .command i) :
    f = fieldsOf i := by
  unfold decodeFields at h
  split_ifs at h with hop h6 h8 h12 hop h0 <;> cases h
  · exact congrArg₂ CommandFields.mk hop h6
  · exact congrArg₂ CommandFields.mk hop h8
  · exact congrArg₂ CommandFields.mk hop h12
  · exact congrArg₂ CommandFields.mk hop h0

@[simp] theorem decode_encode (i : Instr) : decode (encode i) = .command i := by
  obtain ⟨-, hfields⟩ := fieldsLegal i
  rw [decode, encode, hfields, decodeFields_fieldsOf]

theorem decode_eq_command_iff {c : Byte} {i : Instr} : decode c = .command i ↔ c = encode i := by
  constructor
  · intro h
    rw [encode, ← fieldsOf_of_decodeFields h, byteOfFields_fieldsOfByte]
  · rintro rfl
    exact decode_encode i

theorem decode_illegal_of_ne_encode {c : Byte} (h : ∀ i, c ≠ encode i) : ∃ w, decode c = .illegal w := by
  cases hd : decode c with
  | illegal w => exact ⟨w, rfl⟩
  | command i => exact absurd (decode_eq_command_iff.mp hd) (h i)

/-- Settles O6: a byte decodes to a command exactly when it is the command's encoding, and the four encodings are
computed. -/
theorem commandBytesDecode : Obligations.CommandBytesDecode :=
  ⟨decode_encode .perm6, decode_encode .perm8, decode_encode .perm12, decode_encode .encrypt,
    fun _ _ => decode_eq_command_iff.mp, rfl, rfl, rfl, rfl⟩

/-- Settles O7: the byte of a command splits into the command's fields, which are legal and decode to it. -/
theorem decodeOfEncode : Obligations.DecodeOfEncode :=
  fun i => ⟨(fieldsLegal i).1, decode_encode i⟩

/-- Settles O8: the `arg` of each permute command, as a number, is the round count the engine runs. -/
theorem roundCountIsArg : Obligations.RoundCountIsArg :=
  ⟨rfl, rfl, rfl, rfl⟩

/-! ### A byte that is no command -/

theorem submit_of_illegal {s : State} {c : Byte} {w : IllegalByte} (hd : decode c = .illegal w) :
    submit c s = .next (raise .illegalCommand (accept s)) := by
  rw [submit, hd]

/-- Settles O10: an idle block raises `IllegalCommand` on a byte that encodes no command, whatever the latency, and
raising after acceptance writes `STATUS` alone. -/
theorem illegalByteOnlyReports : Obligations.IllegalByteOnlyReports := by
  refine ⟨fun s c rest hin hb h6 h8 h12 henc => ?_, by decide +kernel⟩
  obtain ⟨w, hd⟩ := decode_illegal_of_ne_encode (c := c) (fun i => by
    cases i with
    | perm6 => exact h6
    | perm8 => exact h8
    | perm12 => exact h12
    | encrypt => exact henc)
  have hstatus : (s.status.accepted).failed .illegalCommand = ⟨false, true, .illegalCommand⟩ := by
    rw [← hb]
    rfl
  refine ⟨_, (step_submit hin hb).trans (submit_of_illegal hd), ?_, ?_⟩
  · exact (congrArg statusByte hstatus).trans (by decide)
  · exact congrArg (fun st => { s with inputs := rest, status := st }) hstatus

end Sys2Proof.Machine
end

section
/-! `POLL`, 30_encoding.md R76: one read of `STATUS` of an idle block, and of a running command one at each turn
until the command ends (42_control.md R172 to R174; log entry 7). -/

namespace Sys2Proof.Machine

/-! ### One step of a poll -/

theorem step_poll {s : State} {rest : List HostAction} (hin : s.inputs = .poll :: rest) :
    step s = .next (pollOnce (s.setInputs rest)) := by
  rw [step, hin]
  rfl

theorem step_poll_idle {s : State} {rest : List HostAction} (hin : s.inputs = .poll :: rest)
    (hb : s.status.busy = false) : step s = .next (s.setHostSide rest (s.reads ++ [statusByte s.status])) := by
  have hidle : ¬ (s.setInputs rest).status.busy = true := by simp [hb]
  rw [step_poll hin, pollOnce, if_neg hidle, recordRead, hostRead_statusAddr]
  rfl

theorem step_poll_busy {s : State} {rest : List HostAction} (hin : s.inputs = .poll :: rest)
    (hb : s.status.busy = true) :
    step s = .next (blockTurn (s.setHostSide (.poll :: rest) (s.reads ++ [statusByte s.status]))) := by
  have hbusy : (s.setInputs rest).status.busy = true := hb
  rw [step_poll hin, pollOnce, if_pos hbusy, recordRead, hostRead_statusAddr]
  rfl

/-- Settles O48: the two branches of the poll's step; that it stays first in line is `inputs` left as it was. -/
theorem pollReadsStatusUntilIdle : Obligations.PollReadsStatusUntilIdle := by
  intro s rest hin
  refine ⟨step_poll_idle hin, fun hb => ?_⟩
  rw [step_poll_busy hin hb, ← hin]
  rfl

/-! ### A whole poll -/

/-- A poll of a block that shows one busy `STATUS` for n turns and an idle one after them: n reads of the one, then
one of the other. -/
theorem run_poll {s : State} {running ended : Status} {rest : List HostAction} {n : Nat}
    (hin : s.inputs = .poll :: rest) (hrunning : running.busy = true) (hended : ended.busy = false)
    (hbefore : ∀ k, k < n → (turns k s).status = running) (hafter : (turns n s).status = ended) :
    core.run (n + 1) s = .next ((turns n s).setHostSide rest
      (s.reads ++ (List.replicate n (statusByte running) ++ [statusByte ended]))) := by
  induction n generalizing s with
  | zero =>
    have hnow : s.status = ended := hafter
    have hstep := step_poll_idle hin (hnow ▸ hended)
    rw [hnow] at hstep
    exact run_succ hstep
  | succ n ih =>
    have hnow : s.status = running := hbefore 0 (Nat.succ_pos n)
    have hstep := step_poll_busy hin (hnow ▸ hrunning)
    rw [blockTurn_setHostSide, hnow] at hstep
    have hrest := ih (s := (blockTurn s).setHostSide (.poll :: rest) (s.reads ++ [statusByte running])) rfl
      (fun k hk => by
        rw [turns_setHostSide]
        exact hbefore (k + 1) (Nat.succ_lt_succ hk))
      (by
        rw [turns_setHostSide]
        exact hafter)
    rw [run_succ hstep, hrest, turns_setHostSide, List.replicate_succ, List.cons_append,
      List.append_cons s.reads _ (_ ++ _)]
    rfl

theorem lineValue_poll_concat (r : List Byte) {v : Byte} (h : v.getLsbD 0 = false) :
    lineValue .poll (r ++ [v]) = some (.byte v) := by
  rw [lineValue, pollResult_concat, if_neg (ne_true_of_eq_false h), Option.map_some]

/-! ### The poll of a running command -/

@[simp] theorem statusByte_running : statusByte Status.running = 0x01#8 := rfl

@[simp] theorem statusByte_succeeded : statusByte Status.succeeded = 0x02#8 := rfl

theorem status_of_block_eq {s t : State} (h : s.block = t.block) : s.status = t.status :=
  show s.block.status = t.block.status from congrArg State.status h

theorem turns_status_of_submitted {s u : State} {c : Byte} {i : Instr} {rest : List HostAction}
    (hin : s.inputs = .write cmdAddr c :: rest) (hb : s.status.busy = false) (ht : s.params.timing = .timed)
    (hd : decode c = .command i) (hc : commandError i s = none) (hstep : step s = .next u) {k : Nat}
    (hk : k < turnsOf (opsOf i s)) : (turns k u).status = Status.running := by
  obtain rfl : start i (accept (s.setInputs rest)) = u :=
    Host.Outcome.next.inj ((step_submit_timed hin hb ht hd hc).symm.trans hstep)
  have hops : opsOf i (accept (s.setInputs rest)) = opsOf i s := opsOf_congr rfl rfl
  exact (turns_start i _).1 k (hops ▸ hk)

theorem exec_status_of_passed {i : Instr} {s t : State} (hc : commandError i s = none)
    (hexec : exec i s = .next t) : t.status = Status.succeeded := by
  rw [exec_of_passed hc] at hexec
  injection hexec with ht
  rw [← ht, finish_status]

/-- Settles O51: the accesses before the poll leave n turns of the list, in all of which `STATUS` is that of a
running command, and after the last the block is what the one event of the atomic view leaves. -/
theorem pollLastsUntilTheCommandEnds : Obligations.PollLastsUntilTheCommandEnds := by
  intro s t c i acts rest n hb ht hd hc hin hacts hcount hn hexec
  obtain ⟨u, hstep, hinputs, hbusy, hend⟩ := submitted_timed hin hb ht hd hc hexec
  obtain ⟨r, hrun⟩ := run_of_busy hinputs hacts (fun k hk => hbusy k (by omega))
  have hturns : ∀ k, turns k ((turns (acts.count .wait) u).setHostSide (.poll :: rest) r)
      = (turns (acts.count .wait + k) u).setHostSide (.poll :: rest) r := fun k => by
    rw [turns_setHostSide, turns_add]
  have hpassed : commandError i (accept s) = none := (commandError_congr rfl rfl rfl).trans hc
  have hlast : (turns (acts.count .wait + n) u).status = Status.succeeded := by
    rw [hcount, status_of_block_eq hend, exec_status_of_passed hpassed hexec]
  have hpoll := run_poll (s := (turns (acts.count .wait) u).setHostSide (.poll :: rest) r)
    (running := Status.running) (ended := Status.succeeded) (n := n) rfl rfl rfl
    (fun k hk => by
      rw [hturns]
      exact turns_status_of_submitted hin hb ht hd hc hstep (by omega))
    (by
      rw [hturns]
      exact hlast)
  rw [hturns, statusByte_running, statusByte_succeeded] at hpoll
  refine ⟨_, _, (run_succ hstep).trans hrun, hbusy _ (by omega), hpoll, congrArg Status.busy hlast, ?_, rfl,
    bytesReadSince_of_append rfl, ?_⟩
  · rw [block_setHostSide, block_setHostSide, hcount, hend]
  · rw [scriptValue, bytesReadSince_of_append rfl]
    exact lineValue_poll_concat _ rfl

end Sys2Proof.Machine
end

section
/-! The layers of a round, 40_permutation.md R101 to R106: the round constant, one column through any S-box wiring,
and the bits of a row of the linear layer. -/

namespace Sys2Proof.Machine

/-! ### The round constant -/

theorem roundConstant_add {r : Rounds} {pos : Nat} (h1 : 1 ≤ pos) (hr : pos ≤ roundCount r) :
    roundConstant r pos + (pos - 1) * 15 = rcBase r := by
  refine Nat.sub_add_cancel ?_
  cases r <;> simp only [roundCount, rcBase] at hr ⊢ <;> omega

theorem roundConstant_bounds {r : Rounds} {pos : Nat} (h1 : 1 ≤ pos) (hr : pos ≤ roundCount r) :
    75 ≤ roundConstant r pos ∧ roundConstant r pos ≤ 240 := by
  have hadd := roundConstant_add h1 hr
  cases r <;> simp only [roundCount, rcBase] at hr hadd <;> omega

/-- Settles O11: inside a call the subtraction of R101 does not borrow, and the three rows are computed. -/
theorem roundConstants : Obligations.RoundConstants := by
  refine ⟨fun r pos h1 hr => ⟨?_, roundConstant_bounds h1 hr⟩, rfl, rfl, rfl, rfl, rfl, rfl⟩
  have hadd := roundConstant_add h1 hr
  omega

/-- Settles O12: the constant is below 256, so its zero extension has no bit from 8 up. -/
theorem addRcChangesLowByteOfWordTwo : Obligations.AddRcChangesLowByteOfWordTwo := by
  refine fun X r pos h1 hr => ⟨rfl, fun b hb => ?_, rfl, rfl, rfl, rfl⟩
  obtain ⟨-, hle⟩ := roundConstant_bounds h1 hr
  have hlt : roundConstant r pos < 2 ^ b :=
    (show roundConstant r pos < 2 ^ 8 by omega).trans_le (Nat.pow_le_pow_right (by decide) hb)
  rw [addRc, BitVec.getLsbD_xor, BitVec.getLsbD_ofNat, Nat.testBit_lt_two_pow hlt, Bool.and_false, Bool.xor_false]

/-! ### The words of a wiring -/

theorem Sponge.ext_get {X Y : Sponge} (h : ∀ i, X.get i = Y.get i) : X = Y := by
  obtain ⟨x0, x1, x2, x3, x4⟩ := X
  obtain ⟨y0, y1, y2, y3, y4⟩ := Y
  rw [Sponge.mk.injEq]
  exact ⟨h 0, h 1, h 2, h 3, h 4⟩

theorem getD_setTemp (l : List Word) (n m : Nat) (w : Word) :
    (setTemp l n w).getD m 0#64 = if m = n then w else l.getD m 0#64 := by
  fun_induction setTemp l n w generalizing m with
  | case1 w => cases m <;> rfl
  | case2 w a l => cases m <;> rfl
  | case3 n w ih =>
    cases m with
    | zero => rfl
    | succ m => simpa using ih m
  | case4 a l n w ih =>
    cases m with
    | zero => rfl
    | succ m => simpa using ih m

theorem SboxEnv.get_set (e : SboxEnv) (d r : SboxReg) (w : Word) :
    (e.set d w).get r = if r = d then w else e.get r := by
  cases d with
  | t n =>
    cases r with
    | t m => simpa [SboxEnv.get, SboxEnv.set] using getD_setTemp e.t n m w
    | x i => simp [SboxEnv.get, SboxEnv.set]
  | x i =>
    cases r with
    | t m => simp [SboxEnv.get, SboxEnv.set]
    | x j =>
      by_cases hij : i = j
      · simp [SboxEnv.get, SboxEnv.set, hij]
      · simp [SboxEnv.get, SboxEnv.set, Sponge.get_set_other _ _ hij, Ne.symm hij]

/-! ### One column through a wiring -/

/-- Every name of a wiring has at bit b of one environment the value it has at bit c of the other. -/
def SboxEnv.AgreesAt (b c : Nat) (e f : SboxEnv) : Prop :=
  ∀ r, (e.get r).getLsbD b = (f.get r).getLsbD c

theorem SboxEnv.AgreesAt.set {b c : Nat} {e f : SboxEnv} (h : e.AgreesAt b c f) (d : SboxReg) {v w : Word}
    (hvw : v.getLsbD b = w.getLsbD c) : (e.set d v).AgreesAt b c (f.set d w) := by
  intro r
  rw [SboxEnv.get_set, SboxEnv.get_set]
  split
  · exact hvw
  · exact h r

/-- XOR, AND and complement of whole words work bit by bit, and alike at every bit (R103). -/
theorem SboxEnv.AgreesAt.after_op {b c : Nat} (hb : b < 64) (hc : c < 64) {e f : SboxEnv}
    (h : e.AgreesAt b c f) (o : SboxOp) : (runSboxOp o e).AgreesAt b c (runSboxOp o f) := by
  cases o with
  | xor d a a' => exact h.set d (by rw [BitVec.getLsbD_xor, BitVec.getLsbD_xor, h a, h a'])
  | and d a a' => exact h.set d (by rw [BitVec.getLsbD_and, BitVec.getLsbD_and, h a, h a'])
  | andNot d a a' =>
    exact h.set d (by simp only [BitVec.getLsbD_and, BitVec.getLsbD_not, h a, h a', hb, hc])
  | not d a => exact h.set d (by simp only [BitVec.getLsbD_not, h a, hb, hc])

theorem SboxEnv.AgreesAt.after_sbox {b c : Nat} (hb : b < 64) (hc : c < 64) (sbox : List SboxOp)
    {e f : SboxEnv} (h : e.AgreesAt b c f) : (runSbox sbox e).AgreesAt b c (runSbox sbox f) := by
  induction sbox generalizing e f with
  | nil => exact h
  | cons o l ih => exact ih (h.after_op hb hc o)

/-- Five bits, the first the most significant. -/
def fiveBits (v : Fin 5 → Bool) : BitVec 5 :=
  BitVec.ofBool (v 0) ++ BitVec.ofBool (v 1) ++ BitVec.ofBool (v 2) ++ BitVec.ofBool (v 3) ++ BitVec.ofBool (v 4)

theorem getLsbD_fiveBits : ∀ (v : Fin 5 → Bool) (i : Fin 5), (fiveBits v).getLsbD (4 - i) = v i := by decide

theorem fiveBits_injective : Function.Injective fiveBits := by
  intro v w h
  funext i
  rw [← getLsbD_fiveBits v, h, getLsbD_fiveBits]

theorem column_eq_fiveBits (X : Sponge) (b : Nat) :
    column X b = fiveBits (fun i => (X.get i).getLsbD b) := rfl

theorem column_eq_iff {X Y : Sponge} {b c : Nat} :
    column X b = column Y c ↔ ∀ i, (X.get i).getLsbD b = (Y.get i).getLsbD c := by
  rw [column_eq_fiveBits, column_eq_fiveBits, fiveBits_injective.eq_iff, funext_iff]

theorem sponge_ext_column {X Y : Sponge} (h : ∀ b, b < 64 → column X b = column Y b) : X = Y :=
  Sponge.ext_get fun i => BitVec.eq_of_getLsbD_eq fun b hb => column_eq_iff.mp (h b hb) i

/-- Equal columns at the input are equal columns at the output, of whatever states and at whatever positions. -/
theorem column_subLayer_congr (sbox : List SboxOp) {X Y : Sponge} {b c : Nat} (hb : b < 64) (hc : c < 64)
    (h : column X b = column Y c) : column (subLayer sbox X) b = column (subLayer sbox Y) c := by
  have hstart : SboxEnv.AgreesAt b c { x := X, t := [] } { x := Y, t := [] } := by
    intro r
    cases r with
    | x i => exact column_eq_iff.mp h i
    | t n => simp [SboxEnv.get]
  exact column_eq_iff.mpr fun i => hstart.after_sbox hb hc sbox (.x i)

/-- The state with a given column at position 0, and zeros elsewhere. -/
def spongeOfColumn (c : BitVec 5) : Sponge :=
  { x0 := (c.extractLsb' 4 1).setWidth 64
    x1 := (c.extractLsb' 3 1).setWidth 64
    x2 := (c.extractLsb' 2 1).setWidth 64
    x3 := (c.extractLsb' 1 1).setWidth 64
    x4 := (c.extractLsb' 0 1).setWidth 64 }

theorem column_spongeOfColumn : ∀ c : BitVec 5, column (spongeOfColumn c) 0 = c := by decide

/-- The one function of 5 bits that a wiring is (R103): its effect on the column at position 0. -/
def columnFunction (sbox : List SboxOp) (c : BitVec 5) : BitVec 5 :=
  column (subLayer sbox (spongeOfColumn c)) 0

theorem column_subLayer (sbox : List SboxOp) (X : Sponge) {b : Nat} (hb : b < 64) :
    column (subLayer sbox X) b = columnFunction sbox (column X b) :=
  column_subLayer_congr sbox hb (by decide) (column_spongeOfColumn _).symm

/-- Settles O13, by induction on the wiring: its assignments keep every name's bit at position b what it is at
position 0 of the state with that column there. -/
theorem anySubLayerIsOneColumnFunction : Obligations.AnySubLayerIsOneColumnFunction :=
  fun sbox => ⟨columnFunction sbox, fun X _ hb => column_subLayer sbox X hb⟩

/-! ### The default wiring (log entry 2) -/

theorem columnFunction_defaultSbox :
    ∀ c : BitVec 5, columnFunction defaultSbox c = sboxTable.getD c.toNat 0#5 := by decide +kernel

/-- Settles O15: a wiring is one function of a column's 5 bits, and for the default one its 32 values are
computed. -/
theorem defaultSubLayerIsTheTable : Obligations.DefaultSubLayerIsTheTable :=
  fun X _ hb => (column_subLayer defaultSbox X hb).trans (columnFunction_defaultSbox _)

/-- Settles O14: the 17 assignments run on five words, each temporary read after it is set. -/
theorem defaultSubLayerIsPublishedWiring : Obligations.DefaultSubLayerIsPublishedWiring :=
  fun _ => rfl

/-! ### The linear layer -/

/-- Right rotation, bit by bit (00_scope.md R6); the two ends 0 and 64 are the word itself. -/
theorem getLsbD_rotr64 (w : Word) {n b : Nat} (hn : n ≤ 64) (hb : b < 64) :
    (rotr64 w n).getLsbD b = w.getLsbD ((b + n) % 64) := by
  simp only [rotr64, BitVec.getLsbD_or, BitVec.getLsbD_ushiftRight, BitVec.getLsbD_shiftLeft, hb,
    decide_true, Bool.true_and]
  rcases Nat.lt_or_ge (b + n) 64 with hlow | hwrap
  · have hout : b < 64 - n := by omega
    simp [Nat.mod_eq_of_lt hlow, hout, Nat.add_comm n b]
  · have hmod : (b + n) % 64 = b - (64 - n) := by omega
    have hin : ¬ b < 64 - n := by omega
    have hhigh : w.getLsbD (n + b) = false := BitVec.getLsbD_of_ge _ _ (by omega)
    simp [hmod, hin, hhigh]

theorem getLsbD_diffuse (w : Word) {n m b : Nat} (hn : n ≤ 64) (hm : m ≤ 64) (hb : b < 64) :
    (diffuse w n m).getLsbD b
      = ((w.getLsbD b ^^ w.getLsbD ((b + n) % 64)) ^^ w.getLsbD ((b + m) % 64)) := by
  rw [diffuse, BitVec.getLsbD_xor, BitVec.getLsbD_xor, getLsbD_rotr64 w hn hb, getLsbD_rotr64 w hm hb]

/-- Settles O16: each word goes through one row, and the ten amounts are below 64. -/
theorem linLayerRows : Obligations.LinLayerRows :=
  fun X _ hb =>
    ⟨getLsbD_diffuse X.x0 (by decide) (by decide) hb, getLsbD_diffuse X.x1 (by decide) (by decide) hb,
      getLsbD_diffuse X.x2 (by decide) (by decide) hb, getLsbD_diffuse X.x3 (by decide) (by decide) hb,
      getLsbD_diffuse X.x4 (by decide) (by decide) hb⟩

end Sys2Proof.Machine
end

section
/-! The permutation, 40_permutation.md R107 to R114: its rounds, the relations between the round counts, and its
invertibility. -/

namespace Sys2Proof.Machine

/-! ### The rounds -/

theorem runRounds_eq_foldl (sbox : List SboxOp) (r : Rounds) (n : Nat) (X : Sponge) :
    runRounds sbox r n X
      = (List.range' 1 n).foldl (fun Y pos => linLayer (subLayer sbox (addRc Y r pos))) X := by
  induction n with
  | zero => rfl
  | succ n ih =>
    rw [List.range'_1_concat, List.foldl_concat, ← ih, Nat.add_comm 1 n]
    rfl

/-- Settles O17: the loop of R108 is the fold over the positions it counts. -/
theorem permuteIsItsRounds : Obligations.PermuteIsItsRounds :=
  ⟨fun _ _ _ _ => rfl, fun sbox r X => runRounds_eq_foldl sbox r (roundCount r) X⟩

/-- Where the constants of r start k rounds before those of r', a call of r goes on after k rounds as a call of r'
(R113). -/
theorem runRounds_add {r r' : Rounds} {k : Nat} (hbase : rcBase r = rcBase r' + k * 15) (sbox : List SboxOp)
    (n : Nat) (X : Sponge) : runRounds sbox r (n + k) X = runRounds sbox r' n (runRounds sbox r k X) := by
  induction n with
  | zero => rw [Nat.zero_add]; rfl
  | succ n ih =>
    have hconst : roundConstant r (n + k + 1) = roundConstant r' (n + 1) := by
      simp only [roundConstant, hbase]
      omega
    rw [Nat.add_right_comm, runRounds, runRounds, ih, round, round, addRc, addRc, hconst]

/-- Settles O18: the constants of 6 rounds start 6 rounds into those of 12 and 2 into those of 8, the constants of
8 rounds 4 into those of 12. -/
theorem roundCountRelations : Obligations.RoundCountRelations :=
  fun sbox X =>
    ⟨runRounds_add (r := .r12) (r' := .r6) (k := 6) rfl sbox 6 X,
      runRounds_add (r := .r12) (r' := .r8) (k := 4) rfl sbox 8 X,
      runRounds_add (r := .r8) (r' := .r6) (k := 2) rfl sbox 6 X⟩

/-- Settles O20, by running the engine on five zero words. -/
theorem zeroStateExamples : Obligations.ZeroStateExamples :=
  ⟨by decide +kernel, by decide +kernel, by decide +kernel⟩

/-! ### The layers are invertible -/

theorem xor_cross_cancel : ∀ a b c d e f : Bool,
    ((((a ^^ b) ^^ c) ^^ ((b ^^ d) ^^ e)) ^^ ((c ^^ e) ^^ f)) = ((a ^^ d) ^^ f) := by decide

/-- A row applied twice is the row of the doubled rotations: the cross terms cancel. -/
theorem diffuse_diffuse (w : Word) {n m : Nat} (hn : n < 64) (hm : m < 64) :
    diffuse (diffuse w n m) n m = diffuse w (2 * n % 64) (2 * m % 64) := by
  apply BitVec.eq_of_getLsbD_eq
  intro b hb
  have hmod : ∀ k, (b + k) % 64 < 64 := fun k => Nat.mod_lt _ (by decide)
  have hnn : ((b + n) % 64 + n) % 64 = (b + 2 * n % 64) % 64 := by omega
  have hmm : ((b + m) % 64 + m) % 64 = (b + 2 * m % 64) % 64 := by omega
  have hcross : ((b + m) % 64 + n) % 64 = ((b + n) % 64 + m) % 64 := by omega
  rw [getLsbD_diffuse _ hn.le hm.le hb, getLsbD_diffuse _ hn.le hm.le hb,
    getLsbD_diffuse _ hn.le hm.le (hmod n), getLsbD_diffuse _ hn.le hm.le (hmod m),
    getLsbD_diffuse _ (by omega) (by omega) hb, hnn, hmm, hcross]
  exact xor_cross_cancel _ _ _ _ _ _

theorem diffuse_iterate {n m : Nat} (hn : n < 64) (hm : m < 64) (k : Nat) (w : Word) :
    (fun v => diffuse v n m)^[2 ^ k] w = diffuse w (2 ^ k * n % 64) (2 ^ k * m % 64) := by
  induction k generalizing w with
  | zero => simp [Nat.mod_eq_of_lt hn, Nat.mod_eq_of_lt hm]
  | succ k ih =>
    have hdouble : ∀ j, 2 * (2 ^ k * j % 64) % 64 = 2 ^ (k + 1) * j % 64 := fun j => by
      rw [Nat.mul_mod_mod, ← Nat.mul_assoc, ← Nat.pow_succ']
    rw [← hdouble, ← hdouble, ← diffuse_diffuse w (Nat.mod_lt _ (by decide)) (Nat.mod_lt _ (by decide)),
      ← ih, ← ih, ← Function.iterate_add_apply, ← Nat.mul_two, Nat.pow_succ]

/-- Six doublings turn both rotations into whole turns: a row applied 64 times gives the word back. -/
theorem diffuse_iterate_64 {n m : Nat} (hn : n < 64) (hm : m < 64) (w : Word) :
    (fun v => diffuse v n m)^[64] w = w := by
  have h := diffuse_iterate hn hm 6 w
  simp only [Nat.reducePow, Nat.mul_mod_right] at h
  rw [h]
  apply BitVec.eq_of_getLsbD_eq
  intro b hb
  rw [getLsbD_diffuse w (by decide) (by decide) hb]
  simp [Nat.mod_eq_of_lt hb]

theorem diffuse_injective {n m : Nat} (hn : n < 64) (hm : m < 64) :
    Function.Injective (fun w => diffuse w n m) := by
  intro v w h
  have h64 := congrArg (fun v => diffuse v n m)^[63] h
  rwa [← Function.iterate_succ_apply, ← Function.iterate_succ_apply, diffuse_iterate_64 hn hm,
    diffuse_iterate_64 hn hm] at h64

theorem linLayer_injective : Function.Injective linLayer := by
  intro X Y h
  simp only [linLayer, Sponge.mk.injEq] at h
  obtain ⟨h0, h1, h2, h3, h4⟩ := h
  obtain ⟨x0, x1, x2, x3, x4⟩ := X
  obtain ⟨y0, y1, y2, y3, y4⟩ := Y
  rw [Sponge.mk.injEq]
  exact ⟨diffuse_injective (by decide) (by decide) h0, diffuse_injective (by decide) (by decide) h1,
    diffuse_injective (by decide) (by decide) h2, diffuse_injective (by decide) (by decide) h3,
    diffuse_injective (by decide) (by decide) h4⟩

theorem addRc_injective (r : Rounds) (pos : Nat) : Function.Injective (fun X => addRc X r pos) :=
  Function.LeftInverse.injective (g := fun X => addRc X r pos) fun X => by
    simp [addRc]

/-- The table of R105 has no value twice, so a column of the output tells the column of the input. -/
theorem subLayer_defaultSbox_injective : Function.Injective (subLayer defaultSbox) := by
  have htable : ∀ c d : BitVec 5, sboxTable.getD c.toNat 0#5 = sboxTable.getD d.toNat 0#5 → c = d := by
    decide +kernel
  refine fun X Y h => sponge_ext_column fun b hb => htable _ _ ?_
  rw [← defaultSubLayerIsTheTable X b hb, ← defaultSubLayerIsTheTable Y b hb, h]

/-! ### The permutation is a bijection -/

theorem runRounds_injective {sbox : List SboxOp} (h : Function.Injective (subLayer sbox)) (r : Rounds)
    (n : Nat) : Function.Injective (runRounds sbox r n) := by
  induction n with
  | zero => exact Function.injective_id
  | succ n ih => exact ((linLayer_injective.comp h).comp (addRc_injective r (n + 1))).comp ih

theorem finite_sponge : Finite Sponge :=
  Finite.of_injective Sponge.get fun _ _ h => Sponge.ext_get (congrFun h)

theorem permute_bijective {sbox : List SboxOp} (h : Function.Injective (subLayer sbox)) (r : Rounds) :
    Function.Bijective (permute sbox r) :=
  have := finite_sponge
  Finite.injective_iff_bijective.mp (runRounds_injective h r (roundCount r))

/-- Settles O19: the constant is its own inverse, a row of the linear layer has order dividing 64, and the states
are finitely many; the default substitution layer is invertible because its table is. -/
theorem permuteIsBijective : Obligations.PermuteIsBijective :=
  ⟨fun _ h => permute_bijective h.injective, permute_bijective subLayer_defaultSbox_injective⟩

/-! ### The permute commands -/

/-- A command that permutes in place completes from every state (R109), by the fields the end of a command and the
permutation write. -/
theorem permuteInPlace_completes {i : Instr} {r : Rounds} (hi : ∀ s, exec i s = .next (permuteInPlace r s))
    (s : State) : ∃ t, exec i s = .next t ∧
      t.S = permute s.params.sbox5 r s.S ∧
      t.status = { busy := false, done := true, err := .none } ∧ statusByte t.status = 0x02#8 ∧
      t.mpc = .idle ∧ t.microOps = [] ∧
      SameOperands s t ∧ (∀ a, memGet t.mem a = memGet s.mem a) ∧ SameOutside s t :=
  ⟨permuteInPlace r s, hi s, rfl, rfl, statusByte_succeeded, rfl, rfl, sameOperands_of_mem rfl rfl rfl rfl,
    fun _ => rfl, rfl, rfl, rfl⟩

/-- Settles O21: `PERM6` permutes in place with 6 rounds and then ends. -/
theorem permSixCompletes : Obligations.PermSixCompletes :=
  permuteInPlace_completes fun _ => rfl

/-- Settles O22: `PERM8` permutes in place with 8 rounds and then ends. -/
theorem permEightCompletes : Obligations.PermEightCompletes :=
  permuteInPlace_completes fun _ => rfl

/-- Settles O23: `PERM12` permutes in place with 12 rounds and then ends. -/
theorem permTwelveCompletes : Obligations.PermTwelveCompletes :=
  permuteInPlace_completes fun _ => rfl

end Sys2Proof.Machine
end

section
/-! The padded buffer and its blocks, 41_aead_orchestrator.md R131 and R132: block counts, the bytes of a block, and
the blocks together as the bytes and the words of the padded string. -/

namespace Sys2Proof.Machine

/-! ### Block counts -/

theorem blockCount_eq (n : Nat) : blockCount n = n / 8 + 1 := Nat.add_div_right n (by decide)

theorem blockCount_pred (n : Nat) : blockCount n - 1 = n / 8 := by rw [blockCount_eq, Nat.add_sub_cancel]

theorem tailLength_eq (n : Nat) : tailLength n = n % 8 := rfl

theorem blockCount_bounds {n : Nat} (h : n ≤ 255) : 1 ≤ blockCount n ∧ blockCount n ≤ 32 := by
  rw [blockCount_eq]
  omega

/-- The data are the full blocks and the tail (R132). -/
theorem length_eq_blocks_add_tail (n : Nat) : n = 8 * (blockCount n - 1) + tailLength n := by
  rw [blockCount_pred, tailLength_eq]
  omega

/-- After whole blocks of data the last block is 0x80 and zeros, with no byte of the store. -/
theorem blk_pure_padding {n : Nat} (h : n % 8 = 0) (X : Store) (s : State) :
    blk X n (blockCount n - 1) s = 0x8000000000000000#64 := by
  have hn : 8 * (n / 8) = n := by omega
  have hbyte : (fun k => paddedByte X n (n + k) s) = fun k => if k = 0 then 0x80#8 else 0x00#8 := by
    funext k
    simp [paddedByte]
  rw [blk, blockCount_pred, hn, hbyte]
  rfl

theorem byte_le_255 (v : Byte) : v.toNat ≤ 255 := Nat.le_of_lt_succ v.isLt

/-- Settles O25: both counts are `blockCount` of a length, and an 8-bit length is at most 255. -/
theorem blockCounts : Obligations.BlockCounts := by
  have hceil : ∀ n, blockCount n = (n + 1 + 7) / 8 := fun _ => rfl
  refine ⟨fun n hn => ?_, fun s => ?_⟩
  · obtain ⟨hlo, hhi⟩ := blockCount_bounds (Nat.le_succ_of_le hn)
    exact ⟨hceil n, blockCount_eq n, hlo, hhi, tailLength_eq n, Nat.le_of_lt_succ (tailLength_lt n),
      length_eq_blocks_add_tail n, blk_pure_padding⟩
  · obtain ⟨hslo, hshi⟩ := blockCount_bounds (byte_le_255 s.adlen)
    obtain ⟨htlo, hthi⟩ := blockCount_bounds (byte_le_255 s.ptlen)
    exact ⟨hceil _, rfl, blockCount_eq _, hslo, hshi, hceil _, rfl, blockCount_eq _, htlo, hthi,
      length_eq_blocks_add_tail _, fun h => blk_pure_padding h .ad s, fun h => blk_pure_padding h .pt s⟩

/-! ### The bytes of the blocks -/

theorem byteOf_blk (X : Store) (n j : Nat) (s : State) {k : Nat} (hk : k < 8) :
    byteOf (blk X n j s) k = paddedByte X n (8 * j + k) s :=
  byteOf_wordOfBytes _ hk

/-- Words in order, as bytes: byte m of the string is byte m mod 8 of word m div 8. -/
theorem flatMap_bytes8_range (f : Nat → Word) (c : Nat) :
    (List.range c).flatMap (fun j => bytes8 (f j))
      = (List.range (8 * c)).map (fun m => byteOf (f (m / 8)) (m % 8)) := by
  induction c with
  | zero => rfl
  | succ c ih =>
    rw [List.range_succ, List.flatMap_append, ih, Nat.mul_succ, List.range_add, List.map_append, List.map_map,
      List.flatMap_singleton, bytes8_eq_map]
    congr 1
    refine List.map_congr_left (fun k hk => ?_)
    have hk8 : k < 8 := List.mem_range.mp hk
    rw [Function.comp_apply, show (8 * c + k) / 8 = c by omega, show (8 * c + k) % 8 = k by omega]

/-- The blocks in order are the padded bytes in order. -/
theorem flatMap_bytes8_blk (X : Store) (n c : Nat) (s : State) :
    (List.range c).flatMap (fun j => bytes8 (blk X n j s))
      = (List.range (8 * c)).map (fun m => paddedByte X n m s) := by
  rw [flatMap_bytes8_range]
  refine List.map_congr_left (fun m _ => ?_)
  rw [byteOf_blk _ _ _ _ (Nat.mod_lt m (by decide)), Nat.div_add_mod]

/-- The padded bytes are the data, one 0x80 and zeros (R131). -/
theorem map_paddedByte (X : Store) (n : Nat) (s : State) :
    (List.range (8 * blockCount n)).map (fun m => paddedByte X n m s)
      = Reference.padded (readBytes X 0 n s) := by
  have hcount : 8 * blockCount n = n + (1 + (7 - n % 8)) := by
    rw [blockCount_eq]
    omega
  have hdata : (List.range n).map (fun m => paddedByte X n m s) = readBytes X 0 n s :=
    List.map_congr_left (fun m hm => by
      rw [paddedByte, if_pos (List.mem_range.mp hm), Nat.zero_add])
  have hpadding : (List.range (1 + (7 - n % 8))).map (fun i => paddedByte X n (n + i) s)
      = 0x80#8 :: List.replicate (7 - n % 8) 0x00#8 := by
    simp [List.range_add, paddedByte, Function.comp_def]
  rw [hcount, List.range_add, List.map_append, List.map_map, hdata, Reference.padded, length_readBytes, ← hpadding]
  rfl

theorem flatMap_bytes8_blocks (X : Store) (n : Nat) (s : State) :
    (List.range (blockCount n)).flatMap (fun j => bytes8 (blk X n j s))
      = Reference.padded (readBytes X 0 n s) := by
  rw [flatMap_bytes8_blk, map_paddedByte]

/-- Settles O26: a block's bytes are those of the padded buffer, and the buffer is read off byte by byte. -/
theorem paddedBlocks : Obligations.PaddedBlocks := by
  intro X n s _
  refine ⟨fun j k hk => byteOf_blk X n j s hk, flatMap_bytes8_blocks X n s, ?_⟩
  rw [← map_paddedByte, List.length_map, List.length_range]

/-! ### The words of the padded string -/

theorem wordsOf_bytes8_append (w : Word) (bs : List Byte) :
    Reference.wordsOf (bytes8 w ++ bs) = w :: Reference.wordsOf bs :=
  congrArg (· :: Reference.wordsOf bs) (be64_bytes8 w)

theorem wordsOf_flatMap_bytes8 {α : Type} (f : α → Word) (l : List α) :
    Reference.wordsOf (l.flatMap (fun a => bytes8 (f a))) = l.map f := by
  induction l with
  | nil => rfl
  | cons a l ih => rw [List.flatMap_cons, wordsOf_bytes8_append, ih, List.map_cons]

/-- The words the reference absorbs are the blocks the machine absorbs. -/
theorem wordsOf_padded (X : Store) (n : Nat) (s : State) :
    Reference.wordsOf (Reference.padded (readBytes X 0 n s))
      = (List.range (blockCount n)).map (fun j => blk X n j s) := by
  rw [← flatMap_bytes8_blocks, wordsOf_flatMap_bytes8]

end Sys2Proof.Machine
end

section
/-! The micro-operations that store: the ciphertext emissions and the tag, 41_aead_orchestrator.md R137, R138 and
R141. -/

namespace Sys2Proof.Machine

/-- A byte string written to a store is read back, byte i at its place. -/
theorem readStore_writeBytes {X : Store} {k i : Nat} {bs : List Byte} {s : State} (h : Memory.wf s.mem = true)
    (hi : i < bs.length) : readStore X (k + i) (writeBytes X k bs s) = bs[i] := by
  rw [readStore, ← Nat.add_assoc, memGet_writeBytes_inside h hi]

/-- A byte string written to a store changes the memory only. -/
theorem writeBytes_eq_setMem (X : Store) (k : Nat) (bs : List Byte) (s : State) :
    writeBytes X k bs s = s.setMem (writeBytes X k bs s).mem := by
  induction bs generalizing k s with
  | nil => rfl
  | cons b bs ih => exact ih (k + 1) (writeStore X k b s)

theorem getElem_bytes8 (w : Word) {k : Nat} (hk : k < (bytes8 w).length) : (bytes8 w)[k] = byteOf w k := by
  simp [bytes8_eq_map]

theorem byteOf_xor (v w : Word) (k : Nat) : byteOf (v ^^^ w) k = byteOf v k ^^^ byteOf w k :=
  BitVec.extractLsb'_xor

theorem readBytes_append (X : Store) (k m n : Nat) (s : State) :
    readBytes X k (m + n) s = readBytes X k m s ++ readBytes X (k + m) n s := by
  simp [readBytes, List.range_add, Nat.add_assoc]

theorem readBytes_eq_of_bytes {X : Store} {k : Nat} {w : Word} {s : State}
    (h : ∀ i, i < 8 → readStore X (k + i) s = byteOf w i) : readBytes X k 8 s = bytes8 w :=
  List.map_congr_left (fun i hi => h i (List.mem_range.mp hi))

/-! ### The tag -/

theorem getElem_tagBytes {s : State} {i : Nat} (hi : i < (tagBytes s).length) :
    (tagBytes s)[i] = (bytes8 s.S.x3 ++ bytes8 s.S.x4)[i]'(by simpa using hi) ^^^ readStore .key i s := by
  simp [tagBytes, readBytes]

theorem readStore_mTagOut_low {s : State} (h : Memory.wf s.mem = true) {i : Nat} (hi : i < 8) :
    readStore .tag i (mTagOut s) = byteOf s.S.x3 i ^^^ readStore .key i s := by
  have hread := readStore_writeBytes (X := .tag) (k := 0) h (i := i) (bs := tagBytes s) (by simp; omega)
  rw [Nat.zero_add] at hread
  rw [mTagOut, hread, getElem_tagBytes, List.getElem_append_left (by simpa using hi), getElem_bytes8]

theorem readStore_mTagOut_high {s : State} (h : Memory.wf s.mem = true) {i : Nat} (hi : i < 8) :
    readStore .tag (8 + i) (mTagOut s) = byteOf s.S.x4 i ^^^ readStore .key (8 + i) s := by
  have hread := readStore_writeBytes (X := .tag) (k := 0) h (i := 8 + i) (bs := tagBytes s) (by simp; omega)
  rw [Nat.zero_add] at hread
  rw [mTagOut, hread, getElem_tagBytes, List.getElem_append_right (by simp), getElem_bytes8, length_bytes8,
    Nat.add_sub_cancel_left]

theorem byteOf_k0 (s : State) {i : Nat} (hi : i < 8) : byteOf (k0 s) i = readStore .key i s := by
  rw [k0, byteOf_be64 _ hi]
  simp [readBytes, hi]

theorem byteOf_k1 (s : State) {i : Nat} (hi : i < 8) : byteOf (k1 s) i = readStore .key (8 + i) s := by
  rw [k1, byteOf_be64 _ hi]
  simp [readBytes, hi]

theorem readBytes_mTagOut_low {s : State} (h : Memory.wf s.mem = true) :
    readBytes .tag 0 8 (mTagOut s) = bytes8 (s.S.x3 ^^^ k0 s) :=
  readBytes_eq_of_bytes (fun i hi => by
    rw [Nat.zero_add, readStore_mTagOut_low h hi, byteOf_xor, byteOf_k0 s hi])

theorem readBytes_mTagOut_high {s : State} (h : Memory.wf s.mem = true) :
    readBytes .tag 8 8 (mTagOut s) = bytes8 (s.S.x4 ^^^ k1 s) :=
  readBytes_eq_of_bytes (fun i hi => by
    rw [readStore_mTagOut_high h hi, byteOf_xor, byteOf_k1 s hi])

/-- Settles O34: the sixteen bytes written are the masked bytes of the two words, and `MemWrite` keeps the rest. -/
theorem tagBytesAreMaskedWords : Obligations.TagBytesAreMaskedWords := by
  intro s h
  exact ⟨fun i hi => readStore_mTagOut_low h hi, fun i hi => readStore_mTagOut_high h hi, readBytes_mTagOut_low h,
    readBytes_mTagOut_high h, writeBytes_S _ _ _ s, fun a ha => microOp_run_memGet (o := .tagOut) ha⟩

/-! ### The ciphertext -/

theorem readStore_mEmit {s : State} (h : Memory.wf s.mem = true) (j : Nat) {k : Nat} (hk : k < 8) :
    readStore .ct (8 * j + k) (mEmit j s) = byteOf s.S.x0 k :=
  (readStore_writeBytes h hk).trans (getElem_bytes8 _ hk)

theorem readStore_mEmitTail {s : State} (h : Memory.wf s.mem = true) {k : Nat}
    (hk : k < tailLength s.ptlen.toNat) :
    readStore .ct (8 * (ptBlocks s - 1) + k) (mEmitTail s) = byteOf s.S.x0 k := by
  have hlen : k < ((bytes8 s.S.x0).take (tailLength s.ptlen.toNat)).length := by
    have := tailLength_lt s.ptlen.toNat
    rw [List.length_take, length_bytes8]
    omega
  rw [mEmitTail, readStore_writeBytes h hlen, List.getElem_take, getElem_bytes8]

/-- Settles O35: each emission is one `MemWrite` of bytes of `S[0]`, which stores to its own addresses only. -/
theorem emissionsWriteCiphertext : Obligations.EmissionsWriteCiphertext := by
  intro s h
  exact ⟨fun j k hk => readStore_mEmit h j hk, fun k hk => readStore_mEmitTail h hk,
    fun j a ha => microOp_run_memGet (o := .emit j) ha, fun a ha => microOp_run_memGet (o := .emitTail) ha,
    fun j => writeBytes_eq_setMem _ _ _ s, writeBytes_eq_setMem _ _ _ s⟩

end Sys2Proof.Machine
end

section
/-! The micro-operation list of `ENCRYPT`: its size, 41_aead_orchestrator.md R145, and that every command ends within
the turns of its list, 42_control.md R175. -/

namespace Sys2Proof.Machine

/-! ### The size of the list -/

theorem turnsOf_append (l l' : List MicroOp) : turnsOf (l ++ l') = turnsOf l + turnsOf l' := by
  rw [turnsOf, List.map_append, List.sum_append, turnsOf, turnsOf]

theorem roundsOf_append (l l' : List MicroOp) : roundsOf (l ++ l') = roundsOf l + roundsOf l' := by
  rw [roundsOf, List.map_append, List.sum_append, roundsOf, roundsOf]

theorem permCalls_append (l l' : List MicroOp) : permCalls (l ++ l') = permCalls l + permCalls l' := by
  rw [permCalls, List.filter_append, List.length_append, permCalls, permCalls]

/-- A block of associated data is an absorption and a 6-round permutation. -/
theorem adOps_counts (n : Nat) :
    (adOps n).length = 2 * n ∧ permCalls (adOps n) = n ∧ roundsOf (adOps n) = 6 * n := by
  induction n with
  | zero => exact ⟨rfl, rfl, rfl⟩
  | succ n ih =>
    obtain ⟨hlength, hcalls, hrounds⟩ := ih
    rw [adOps_succ, List.length_append, permCalls_append, roundsOf_append, hlength, hcalls, hrounds]
    exact ⟨rfl, rfl, rfl⟩

/-- A full block of plaintext is an absorption, an emission and a 6-round permutation. -/
theorem ptOps_counts (n : Nat) :
    (ptOps n).length = 3 * n ∧ permCalls (ptOps n) = n ∧ roundsOf (ptOps n) = 6 * n := by
  induction n with
  | zero => exact ⟨rfl, rfl, rfl⟩
  | succ n ih =>
    obtain ⟨hlength, hcalls, hrounds⟩ := ih
    rw [ptOps_succ, List.length_append, permCalls_append, roundsOf_append, hlength, hcalls, hrounds]
    exact ⟨rfl, rfl, rfl⟩

theorem encryptOps_length (s : Nat) {t : Nat} (ht : 1 ≤ t) : (encryptOps s t).length = 2 * s + 3 * t + 7 := by
  simp only [encryptOps, List.length_append, (adOps_counts s).1, (ptOps_counts (t - 1)).1, List.length_cons,
    List.length_nil]
  omega

theorem encryptOps_permCalls (s : Nat) {t : Nat} (ht : 1 ≤ t) : permCalls (encryptOps s t) = s + t + 1 := by
  obtain ⟨-, hs, -⟩ := adOps_counts s
  obtain ⟨-, ht', -⟩ := ptOps_counts (t - 1)
  have hinit : permCalls [.loadInit, .perm .r12, .keyX34] = 1 := rfl
  have hdsep : permCalls [.dsep] = 0 := rfl
  have hend : permCalls [.absPt (t - 1), .emitTail, .keyX12, .perm .r12, .tagOut, .discard] = 1 := rfl
  simp only [encryptOps, permCalls_append, hs, ht', hinit, hdsep, hend]
  omega

theorem encryptOps_roundsOf (s : Nat) {t : Nat} (ht : 1 ≤ t) :
    roundsOf (encryptOps s t) = 24 + 6 * (s + t - 1) := by
  obtain ⟨-, -, hs⟩ := adOps_counts s
  obtain ⟨-, -, ht'⟩ := ptOps_counts (t - 1)
  have hinit : roundsOf [.loadInit, .perm .r12, .keyX34] = 12 := rfl
  have hdsep : roundsOf [.dsep] = 0 := rfl
  have hend : roundsOf [.absPt (t - 1), .emitTail, .keyX12, .perm .r12, .tagOut, .discard] = 12 := rfl
  simp only [encryptOps, roundsOf_append, hs, ht', hinit, hdsep, hend]
  omega

/-- Settles O36: the counts of the fixed entries and of the two runs of blocks add up. -/
theorem encryptListCounts : Obligations.EncryptListCounts := by
  intro s t _ ht
  rw [encryptOps_length s ht, encryptOps_permCalls s ht, encryptOps_roundsOf s ht]
  exact ⟨rfl, rfl, rfl, fun _ _ => by omega⟩

theorem opsOf_length_le (i : Instr) (s : State) : (opsOf i s).length ≤ 167 := by
  cases i with
  | encrypt =>
    have hs : 1 ≤ adBlocks s ∧ adBlocks s ≤ 32 := blockCount_bounds (byte_le_255 s.adlen)
    have ht : 1 ≤ ptBlocks s ∧ ptBlocks s ≤ 32 := blockCount_bounds (byte_le_255 s.ptlen)
    rw [opsOf, encryptOps_length _ ht.1]
    omega
  | _ => exact Nat.le_of_ble_eq_true rfl

/-! ### The turns that are left -/

/-- From inside a permutation, its entry is left after the rounds still to run. -/
theorem turns_perm_leaves {s : State} {n : Nat} {r : Rounds} (hm : s.mpc = .entry n)
    (ho : s.microOps[n]? = some (.perm r)) (d : Nat) (hd : s.pos + d = roundCount r) :
    ∃ u, turns (d + 1) s = leave n u ∧ u.microOps = s.microOps := by
  induction d generalizing s with
  | zero =>
    refine ⟨permRound r s, ?_, rfl⟩
    simp only [turns, blockTurn, hm, ho]
    exact if_pos (by omega)
  | succ d ih =>
    have hround : blockTurn s = permRound r s := by
      simp only [blockTurn, hm, ho]
      exact if_neg (by omega)
    have hpos : (permRound r s).pos + d = roundCount r := by rw [← hd, Nat.add_comm d 1, ← Nat.add_assoc]; rfl
    obtain ⟨u, hu, hlist⟩ := ih (s := permRound r s) hm ho hpos
    exact ⟨u, by rw [turns, hround, hu], hlist⟩

/-- The entry a busy block stands at is left within the turns its micro-operation takes. -/
theorem MachineInv.turns_leave_entry {s : State} (h : MachineInv s) {n : Nat} {o : MicroOp}
    (hm : s.mpc = .entry n) (ho : s.microOps[n]? = some o) :
    ∃ k u, 1 ≤ k ∧ k ≤ o.turns ∧ turns k s = leave n u ∧ u.microOps = s.microOps := by
  cases o with
  | perm r =>
    obtain ⟨hlo, hhi⟩ := h.pos_range n r hm ho
    obtain ⟨u, hu, hlist⟩ := turns_perm_leaves hm ho (roundCount r - s.pos) (by omega)
    exact ⟨_, u, Nat.le_add_left 1 _, show _ ≤ roundCount r by omega, hu, hlist⟩
  | _ => exact ⟨1, _, le_rfl, le_rfl, by simp only [turns, blockTurn, hm, ho]; rfl, microOp_run_microOps _ s⟩

/-- From the start of an entry the turns of the rest of the list end the command. -/
theorem turns_goTo_end {u : State} {n : Nat} (hn : n < u.microOps.length) :
    (turns (turnsOf (u.microOps.drop n)) (goTo n u)).status = Status.succeeded ∧
    (turns (turnsOf (u.microOps.drop n)) (goTo n u)).mpc = .idle := by
  have hl := List.drop_eq_getElem_cons hn
  obtain ⟨-, hend⟩ := turns_rest_of_list (s := goTo n u) rfl hl (posAt_posAt _ _ _).symm
  rw [hl]
  exact ⟨status_of_block_eq hend, congrArg State.mpc hend⟩

/-- From where an entry is left the command ends after the turns of the entries that follow. -/
theorem turns_leave_end (n : Nat) (u : State) :
    (turns (turnsOf (u.microOps.drop (n + 1))) (leave n u)).status = Status.succeeded ∧
    (turns (turnsOf (u.microOps.drop (n + 1))) (leave n u)).mpc = .idle := by
  rcases leave_cases n u with ⟨hn, heq⟩ | ⟨hn, heq⟩
  · rw [heq]
    exact turns_goTo_end hn
  · rw [heq, List.drop_eq_nil_of_le hn]
    exact ⟨rfl, rfl⟩

/-- Settles O39: the entry the block stands at is left, and the entries that follow are run, within their turns. -/
theorem everyAcceptedCommandEnds : Obligations.EveryAcceptedCommandEnds := by
  intro s h hb
  obtain ⟨n, hm⟩ : ∃ n, s.mpc = .entry n := by
    cases hm : s.mpc with
    | idle => exact absurd hm (h.busy_iff.mp hb)
    | entry n => exact ⟨n, rfl⟩
  obtain ⟨hn, i, -, hlist⟩ := h.running n hm
  obtain ⟨k, u, hk1, hk, hleave, hops⟩ := h.turns_leave_entry hm (List.getElem?_eq_getElem hn)
  obtain ⟨hstatus, hmpc⟩ := turns_leave_end n u
  rw [← hleave, ← turns_add, hops] at hstatus hmpc
  refine ⟨hlist ▸ opsOf_length_le i s, k + turnsOf (s.microOps.drop (n + 1)), by omega, ?_, hstatus, hmpc⟩
  calc k + turnsOf (s.microOps.drop (n + 1))
      ≤ turnsOf (s.microOps.drop n) := by rw [List.drop_eq_getElem_cons hn, turnsOf_cons]; omega
    _ ≤ turnsOf (s.microOps.take n) + turnsOf (s.microOps.drop n) := Nat.le_add_left _ _
    _ = turnsOf s.microOps := by rw [← turnsOf_append, List.take_append_drop]

end Sys2Proof.Machine
end

section
/-! `Encrypt` of 41_aead_orchestrator.md R144 over a numbered sequence of blocks: the sponge after the first n of
them, and the ciphertext word of each. -/

namespace Sys2Proof.Machine

theorem Reference.absorb_append (sbox : List SboxOp) (l l' : List Word) (X : Sponge) :
    Reference.absorb sbox (l ++ l') X = Reference.absorb sbox l' (Reference.absorb sbox l X) := by
  induction l generalizing X with
  | nil => rfl
  | cons w l ih => exact ih _

theorem Reference.crypt_cons (sbox : List SboxOp) (w : Word) {l : List Word} (hl : l ≠ []) (X : Sponge) :
    Reference.crypt sbox (w :: l) X =
      (bytes8 (X.x0 ^^^ w) ++ (Reference.crypt sbox l (Reference.absorb sbox [w] X)).1,
        (Reference.crypt sbox l (Reference.absorb sbox [w] X)).2) := by
  cases l with
  | nil => exact absurd rfl hl
  | cons w' l => rfl

/-- The sponge after the first n of a sequence of blocks, each absorbed and followed by 6 rounds (R135, R137). -/
def absorbFirst (sbox : List SboxOp) (w : Nat → Word) (n : Nat) (X : Sponge) : Sponge :=
  Reference.absorb sbox ((List.range n).map w) X

theorem absorbFirst_succ (sbox : List SboxOp) (w : Nat → Word) (n : Nat) (X : Sponge) :
    absorbFirst sbox w (n + 1) X = Reference.absorb sbox [w n] (absorbFirst sbox w n X) := by
  rw [absorbFirst, List.range_succ, List.map_append, Reference.absorb_append]
  rfl

theorem range_succ_map (w : Nat → Word) (n : Nat) :
    (List.range (n + 1)).map w = w 0 :: (List.range n).map (fun j => w (j + 1)) := by
  rw [List.range_succ_eq_map, List.map_cons, List.map_map]
  rfl

theorem absorbFirst_succ_front (sbox : List SboxOp) (w : Nat → Word) (n : Nat) (X : Sponge) :
    absorbFirst sbox w (n + 1) X
      = absorbFirst sbox (fun j => w (j + 1)) n (Reference.absorb sbox [w 0] X) := by
  rw [absorbFirst, range_succ_map]
  rfl

theorem absorbFirst_congr {sbox : List SboxOp} {v w : Nat → Word} {n : Nat} {X : Sponge}
    (h : ∀ j, j < n → v j = w j) : absorbFirst sbox v n X = absorbFirst sbox w n X := by
  rw [absorbFirst, absorbFirst, List.map_congr_left (fun j hj => h j (List.mem_range.mp hj))]

/-- Ciphertext word j of a sequence of blocks: word 0 after the blocks before it, XOR block j (R137, R138). -/
def cipherWord (sbox : List SboxOp) (w : Nat → Word) (X : Sponge) (j : Nat) : Word :=
  (absorbFirst sbox w j X).x0 ^^^ w j

/-- The reference's plaintext phase: the ciphertext words as bytes, and the sponge with the last of them in
word 0. -/
theorem crypt_range (sbox : List SboxOp) (w : Nat → Word) (n : Nat) (X : Sponge) :
    Reference.crypt sbox ((List.range (n + 1)).map w) X =
      ((List.range (n + 1)).flatMap (fun j => bytes8 (cipherWord sbox w X j)),
        { absorbFirst sbox w n X with x0 := cipherWord sbox w X n }) := by
  induction n generalizing w X with
  | zero => rfl
  | succ n ih =>
    have hword : ∀ j, cipherWord sbox w X (j + 1)
        = cipherWord sbox (fun j => w (j + 1)) (Reference.absorb sbox [w 0] X) j :=
      fun j => by rw [cipherWord, absorbFirst_succ_front]; rfl
    have hbytes : (List.range (n + 2)).flatMap (fun j => bytes8 (cipherWord sbox w X j))
        = bytes8 (X.x0 ^^^ w 0) ++ (List.range (n + 1)).flatMap (fun j => bytes8 (cipherWord sbox w X (j + 1))) := by
      rw [List.range_succ_eq_map, List.flatMap_cons, List.flatMap_map]
      rfl
    rw [range_succ_map, Reference.crypt_cons _ _ (by simp), ih, hbytes, absorbFirst_succ_front, hword]
    simp only [hword]

end Sys2Proof.Machine
end

section
/-! `ENCRYPT` as a whole, 41_aead_orchestrator.md R130 to R144: what each phase leaves, and that ciphertext and tag
are those of the pure function `Encrypt`. -/

namespace Sys2Proof.Machine

theorem exec_encrypt_of_passed {s : State} (hc : commandError .encrypt s = none) :
    exec .encrypt s = .next (finish (encryptPhases s)) := by
  rw [exec_of_passed hc, encryptPhases_eq_runOps]
  rfl

/-! ### Completion and frame -/

theorem SameOperands.finish {s t : State} (h : SameOperands s t) : SameOperands s (finish t) :=
  h.trans (sameOperands_of_mem rfl rfl rfl rfl)

theorem SameOutside.finish {s t : State} (h : SameOutside s t) : SameOutside s (finish t) := h

@[simp] theorem readStore_finish (X : Store) (k : Nat) (s : State) :
    readStore X k (finish s) = readStore X k s := rfl

@[simp] theorem readBytes_finish (X : Store) (k n : Nat) (s : State) :
    readBytes X k n (finish s) = readBytes X k n s := rfl

theorem runOps_sameOutside (l : List MicroOp) (s : State) : SameOutside s (runOps l s) :=
  ⟨runOps_params l s, runOps_inputs l s, runOps_reads l s⟩

/-- A command stores to no byte but `CT[0..PTLEN-1]` and `TAG[0..15]` (R143). -/
theorem memGet_runOps_opsOf {i : Instr} {s : State} {a : Nat} (h : ¬ encryptStores s a) :
    memGet (runOps (opsOf i s) s).mem a = memGet s.mem a :=
  (runOps_induction (P := fun u => u.ptlen = s.ptlen ∧ memGet u.mem a = memGet s.mem a)
    (fun o ho u ⟨hl, hu⟩ => ⟨(microOp_run_ptlen o u).trans hl,
      (microOp_run_memGet (fun hst => h (opStores_of_mem ho hl hst))).trans hu⟩) ⟨rfl, rfl⟩).2

/-- The last micro-operation of `ENCRYPT` discards `S` (R142). -/
theorem runOps_encrypt_S (s : State) : (runOps (opsOf .encrypt s) s).S = Sponge.zero := by
  rw [opsOf, ← encryptPhases_eq_runOps]
  rfl

/-- Settles O30: the list ends with `S` discarded, and each of its micro-operations keeps the operands, the
parameters and the host's side. -/
theorem encryptCompletes : Obligations.EncryptCompletes := by
  intro s hp ha ht
  have hc := commandError_encrypt_of hp ha ht
  have hsame : SameOperands s (runOps (opsOf .encrypt s) s) := runOps_sameOperands hc rfl
  have hout := runOps_sameOutside (opsOf .encrypt s) s
  have hmem : ∀ a, ¬ encryptStores s a → memGet (runOps (opsOf .encrypt s) s).mem a = memGet s.mem a :=
    fun _ => memGet_runOps_opsOf
  refine ⟨_, exec_of_passed hc, ?_⟩
  rw [finish_S, finish_status, finish_mpc, finish_microOps, finish_mem, runOps_encrypt_S]
  exact ⟨rfl, rfl, statusByte_succeeded, rfl, rfl, hsame.finish, hout.finish, hmem⟩

/-! ### Initialization and associated data -/

theorem readBytes_take (X : Store) (m n : Nat) (s : State) :
    (readBytes X 0 (m + n) s).take m = readBytes X 0 m s := by
  rw [readBytes_append, List.take_left' (length_readBytes _ _ _ _)]

theorem readBytes_drop (X : Store) (m n : Nat) (s : State) :
    (readBytes X 0 (m + n) s).drop m = readBytes X m n s := by
  rw [readBytes_append, List.drop_left' (length_readBytes _ _ _ _), Nat.zero_add]

theorem k0_eq (s : State) : k0 s = be64 ((readBytes .key 0 16 s).take 8) := by rw [readBytes_take .key 8 8, k0]

theorem k1_eq (s : State) : k1 s = be64 ((readBytes .key 0 16 s).drop 8) := by rw [readBytes_drop .key 8 8, k1]

theorem n0_eq (s : State) : n0 s = be64 ((readBytes .nonce 0 16 s).take 8) := by rw [readBytes_take .nonce 8 8, n0]

theorem n1_eq (s : State) : n1 s = be64 ((readBytes .nonce 0 16 s).drop 8) := by rw [readBytes_drop .nonce 8 8, n1]

theorem phaseInit_eq (s : State) : phaseInit s = s.setS (Reference.initial s.params.sbox5 s.params.iv
    (readBytes .key 0 16 s) (readBytes .nonce 0 16 s)) := by
  simp only [Reference.initial, ← k0_eq, ← k1_eq, ← n0_eq, ← n1_eq]
  rfl

theorem absorbAd_eq (n : Nat) (s : State) :
    absorbAd n s = s.setS (absorbFirst s.params.sbox5 (fun j => blk .ad s.adlen.toNat j s) n s.S) := by
  induction n with
  | zero => rfl
  | succ n ih =>
    rw [absorbAd, ih, absorbFirst_succ]
    rfl

theorem phaseAd_eq (s : State) :
    phaseAd s = s.setS (Reference.afterAd s.params.sbox5 (readBytes .ad 0 s.adlen.toNat s) s.S) := by
  rw [phaseAd, absorbAd_eq, Reference.afterAd, wordsOf_padded]
  rfl

/-- The sponge as the plaintext phase begins: of the parameters, the key, the nonce and the associated data. -/
def beforePt (s : State) : Sponge :=
  Reference.afterAd s.params.sbox5 (readBytes .ad 0 s.adlen.toNat s)
    (Reference.initial s.params.sbox5 s.params.iv (readBytes .key 0 16 s) (readBytes .nonce 0 16 s))

theorem phaseAd_phaseInit_eq (s : State) : phaseAd (phaseInit s) = s.setS (beforePt s) := by
  rw [phaseInit_eq, phaseAd_eq]
  rfl

/-! ### Plaintext -/

/-- Plaintext block j of a state, padded (R131). -/
def ptWord (s : State) (j : Nat) : Word := blk .pt s.ptlen.toNat j s

/-- A block depends on the data bytes in it only (R131). -/
theorem blk_congr {X : Store} {m n j : Nat} {s t : State}
    (h : ∀ k, k < 8 → paddedByte X m (8 * j + k) t = paddedByte X n (8 * j + k) s) :
    blk X m j t = blk X n j s :=
  word_ext (fun k hk => by rw [byteOf_blk _ _ _ _ hk, byteOf_blk _ _ _ _ hk, h k hk])

theorem paddedByte_of_lt {X : Store} {m n : Nat} {s : State} (h : m < n) :
    paddedByte X n m s = readStore X m s :=
  if_pos h

theorem SameOperands.ptWord_eq {s t : State} (h : SameOperands s t) (hpt : s.ptlen.toNat ≤ 254) (j : Nat) :
    ptWord t j = ptWord s j := by
  obtain ⟨-, hl, -, -, -, -, hread⟩ := h
  rw [ptWord, ptWord, hl]
  refine blk_congr (fun k _ => ?_)
  unfold paddedByte
  split
  · exact hread _ (by omega)
  · rfl

theorem firstBytes_congr {X : Store} {n : Nat} {s t : State}
    (h : ∀ k, k < n → readStore X k t = readStore X k s) : readBytes X 0 n t = readBytes X 0 n s :=
  readBytes_congr (fun i hi => by rw [Nat.zero_add, h i hi])

theorem SameOperands.key_eq {s t : State} (h : SameOperands s t) :
    readBytes .key 0 16 t = readBytes .key 0 16 s := by
  obtain ⟨-, -, -, hkey, -, -, -⟩ := h
  exact firstBytes_congr hkey

theorem runOps_mem_wf (l : List MicroOp) {s : State} (h : Memory.wf s.mem = true) :
    Memory.wf (runOps l s).mem = true :=
  runOps_induction (P := fun u => Memory.wf u.mem = true) (fun o _ _ hu => microOp_run_mem_wf o hu) h

/-- Any micro-operations of a command's list keep the operands. -/
theorem runOps_sameOperands_of_subset {i : Instr} {s : State} {l : List MicroOp} (hc : commandError i s = none)
    (hl : l ⊆ opsOf i s) : SameOperands s (runOps l s) :=
  runOps_induction (P := SameOperands s)
    (fun _ ho _ hu => hu.trans (run_sameOperands hc (hl ho) hu.ptlen)) (.refl s)

theorem ptOps_subset {m n : Nat} (h : m ≤ n) : ptOps m ⊆ ptOps n := by
  induction n, h using Nat.le_induction with
  | base => exact List.Subset.refl _
  | succ n _ ih => exact fun o ho => ptOps_succ n ▸ List.mem_append_left _ (ih ho)

/-- The micro-operations of the plaintext phase (R172). -/
def phasePtOps (s : State) : List MicroOp := ptOps (ptBlocks s - 1) ++ [.absPt (ptBlocks s - 1), .emitTail]

theorem phasePt_eq_runOps (s : State) : phasePt s = runOps (phasePtOps s) s := by
  rw [phasePtOps, runOps_append, runOps_ptOps]
  rfl

theorem phasePtOps_subset (s : State) : phasePtOps s ⊆ opsOf .encrypt s := by
  intro o ho
  rcases List.mem_append.mp ho with h | h
  · simp [opsOf, encryptOps, h]
  · simp only [List.mem_cons, List.not_mem_nil, or_false] at h
    rcases h with rfl | rfl <;> simp [opsOf, encryptOps]

theorem phasePt_sameOperands {s : State} (hc : commandError .encrypt s = none) : SameOperands s (phasePt s) :=
  phasePt_eq_runOps s ▸ runOps_sameOperands_of_subset hc (phasePtOps_subset s)

theorem phasePt_mem_wf {s : State} (h : Memory.wf s.mem = true) : Memory.wf (phasePt s).mem = true :=
  phasePt_eq_runOps s ▸ runOps_mem_wf _ h

@[simp] theorem phasePt_params (s : State) : (phasePt s).params = s.params := by
  rw [phasePt_eq_runOps, runOps_params]

theorem encryptBlocks_mem_wf (n : Nat) {s : State} (h : Memory.wf s.mem = true) :
    Memory.wf (encryptBlocks n s).mem = true :=
  runOps_ptOps n s ▸ runOps_mem_wf _ h

@[simp] theorem encryptBlocks_params (n : Nat) (s : State) : (encryptBlocks n s).params = s.params := by
  rw [← runOps_ptOps, runOps_params]

theorem encryptBlocks_ptWord {n : Nat} {s : State} (hc : commandError .encrypt s = none)
    (hn : n ≤ ptBlocks s - 1) (j : Nat) : ptWord (encryptBlocks n s) j = ptWord s j := by
  have hsub : ptOps n ⊆ opsOf .encrypt s := fun o ho =>
    phasePtOps_subset s (List.mem_append_left _ (ptOps_subset hn ho))
  have hsame : SameOperands s (encryptBlocks n s) := runOps_ptOps n s ▸ runOps_sameOperands_of_subset hc hsub
  exact hsame.ptWord_eq (commandError_encrypt_none hc).2.2 j

/-- The full blocks are absorbed one after another (R137). -/
theorem encryptBlocks_S {n : Nat} {s : State} (hc : commandError .encrypt s = none) (hn : n ≤ ptBlocks s - 1) :
    (encryptBlocks n s).S = absorbFirst s.params.sbox5 (ptWord s) n s.S := by
  induction n with
  | zero => rfl
  | succ n ih =>
    have hstep : (encryptBlocks (n + 1) s).S
        = Reference.absorb s.params.sbox5 [ptWord (encryptBlocks n s) n] (encryptBlocks n s).S := by
      simp only [encryptBlocks, mPerm, mEmit, mAbsPt, State.setS_S, State.setS_params, writeBytes_S,
        writeBytes_params, encryptBlocks_params]
      rfl
    rw [hstep, encryptBlocks_ptWord hc (by omega), ih (by omega), absorbFirst_succ]

/-- Word 0 once block n is absorbed after the blocks before it. -/
theorem mAbsPt_encryptBlocks_x0 {n : Nat} {s : State} (hc : commandError .encrypt s = none)
    (hn : n ≤ ptBlocks s - 1) :
    (mAbsPt n (encryptBlocks n s)).S.x0 = cipherWord s.params.sbox5 (ptWord s) s.S n := by
  rw [cipherWord, ← encryptBlocks_S hc hn, ← encryptBlocks_ptWord hc hn]
  rfl

/-- Byte m of the full blocks' ciphertext. -/
theorem encryptBlocks_ct {n m : Nat} {s : State} (hc : commandError .encrypt s = none)
    (hw : Memory.wf s.mem = true) (hn : n ≤ ptBlocks s - 1) (hm : m < 8 * n) :
    readStore .ct m (encryptBlocks n s) = byteOf (cipherWord s.params.sbox5 (ptWord s) s.S (m / 8)) (m % 8) := by
  induction n with
  | zero => omega
  | succ n ih =>
    have hperm : readStore .ct m (encryptBlocks (n + 1) s)
        = readStore .ct m (mEmit n (mAbsPt n (encryptBlocks n s))) := rfl
    rw [hperm]
    by_cases hold : m < 8 * n
    · have hframe : readStore .ct m (mEmit n (mAbsPt n (encryptBlocks n s)))
          = readStore .ct m (encryptBlocks n s) :=
        microOp_run_memGet (o := .emit n) (fun hst => by simp only [opStores] at hst; omega)
      rw [hframe, ih (by omega) hold]
    · have hwf : Memory.wf (mAbsPt n (encryptBlocks n s)).mem = true := encryptBlocks_mem_wf n hw
      rw [show m / 8 = n by omega, ← mAbsPt_encryptBlocks_x0 hc (by omega),
        ← readStore_mEmit hwf n (Nat.mod_lt m (by decide)), show 8 * n + m % 8 = m by omega]

/-- The state as the tail is emitted: the full blocks done and the last block absorbed (R138). -/
def beforeTail (s : State) : State := mAbsPt (ptBlocks s - 1) (encryptBlocks (ptBlocks s - 1) s)

theorem phasePt_eq (s : State) : phasePt s = mEmitTail (beforeTail s) := rfl

@[simp] theorem beforeTail_ptlen (s : State) : (beforeTail s).ptlen = s.ptlen := by
  rw [beforeTail, ← runOps_ptOps]
  exact runOps_ptlen _ s

@[simp] theorem ptBlocks_beforeTail (s : State) : ptBlocks (beforeTail s) = ptBlocks s := by
  rw [ptBlocks, beforeTail_ptlen, ptBlocks]

/-- A byte of the full blocks reads after the tail as before it. -/
theorem phasePt_ct_of_full {m : Nat} {s : State} (hm : m < 8 * (ptBlocks s - 1)) :
    readStore .ct m (phasePt s) = readStore .ct m (encryptBlocks (ptBlocks s - 1) s) :=
  microOp_run_memGet (o := .emitTail) (s := beforeTail s) (fun hst => by
    simp only [opStores, ptBlocks_beforeTail] at hst
    omega)

/-- Byte m of the ciphertext, of a full block or of the tail (R137, R138). -/
theorem phasePt_ct {m : Nat} {s : State} (hc : commandError .encrypt s = none) (hw : Memory.wf s.mem = true)
    (hm : m < s.ptlen.toNat) :
    readStore .ct m (phasePt s) = byteOf (cipherWord s.params.sbox5 (ptWord s) s.S (m / 8)) (m % 8) := by
  have hsplit : s.ptlen.toNat = 8 * (ptBlocks s - 1) + tailLength s.ptlen.toNat := length_eq_blocks_add_tail _
  have htail := tailLength_lt s.ptlen.toNat
  by_cases hfull : m < 8 * (ptBlocks s - 1)
  · rw [phasePt_ct_of_full hfull, encryptBlocks_ct hc hw le_rfl hfull]
  · have hwf : Memory.wf (beforeTail s).mem = true := encryptBlocks_mem_wf _ hw
    have hread := readStore_mEmitTail hwf (k := m % 8) (by rw [beforeTail_ptlen]; omega)
    rw [ptBlocks_beforeTail, show 8 * (ptBlocks s - 1) + m % 8 = m by omega] at hread
    rw [show m / 8 = ptBlocks s - 1 by omega, ← mAbsPt_encryptBlocks_x0 hc le_rfl, phasePt_eq, hread, beforeTail]

/-- The sponge after the plaintext phase has the last ciphertext word in word 0. -/
theorem phasePt_S {s : State} (hc : commandError .encrypt s = none) :
    (phasePt s).S = { absorbFirst s.params.sbox5 (ptWord s) (ptBlocks s - 1) s.S with
      x0 := cipherWord s.params.sbox5 (ptWord s) s.S (ptBlocks s - 1) } := by
  rw [phasePt, mEmitTail, writeBytes_S, ← mAbsPt_encryptBlocks_x0 hc le_rfl, ← encryptBlocks_S hc le_rfl]
  rfl

/-- The reference's plaintext words, the last of them numbered one below their count. -/
theorem wordsOf_padded_pt (s : State) :
    Reference.wordsOf (Reference.padded (readBytes .pt 0 s.ptlen.toNat s))
      = (List.range (ptBlocks s - 1 + 1)).map (ptWord s) := by
  have hcount : ptBlocks s - 1 + 1 = blockCount s.ptlen.toNat := by rw [ptBlocks, blockCount_pred, blockCount_eq]
  rw [wordsOf_padded, hcount]
  rfl

/-- The plaintext phase leaves in `CT` and `S` what the reference's does (R137, R138). -/
theorem phasePt_eq_crypt {s : State} (hc : commandError .encrypt s = none) (hw : Memory.wf s.mem = true) :
    readBytes .ct 0 s.ptlen.toNat (phasePt s) = (Reference.crypt s.params.sbox5
      (Reference.wordsOf (Reference.padded (readBytes .pt 0 s.ptlen.toNat s))) s.S).1.take s.ptlen.toNat ∧
    (phasePt s).S = (Reference.crypt s.params.sbox5
      (Reference.wordsOf (Reference.padded (readBytes .pt 0 s.ptlen.toNat s))) s.S).2 := by
  have hfit : s.ptlen.toNat ≤ 8 * (ptBlocks s - 1 + 1) := by
    rw [ptBlocks, blockCount_pred]
    omega
  rw [wordsOf_padded_pt, crypt_range, flatMap_bytes8_range, ← List.map_take, List.take_range, Nat.min_eq_left hfit]
  refine ⟨List.map_congr_left (fun m hm => ?_), phasePt_S hc⟩
  rw [Nat.zero_add, phasePt_ct hc hw (List.mem_range.mp hm)]

/-! ### Finalization -/

/-- The discard stores nothing. -/
theorem phaseFinal_mem (s : State) : (phaseFinal s).mem = (mTagOut (mPerm .r12 (mKeyX12 s))).mem := rfl

/-- The final phase leaves in `TAG` the reference's tag (R140, R141). -/
theorem phaseFinal_tag {s : State} (h : Memory.wf s.mem = true) :
    readBytes .tag 0 16 (phaseFinal s) = Reference.tagOf s.params.sbox5 (readBytes .key 0 16 s) s.S := by
  have hwf : Memory.wf (mPerm .r12 (mKeyX12 s)).mem = true := h
  have hdiscard : readBytes .tag 0 (8 + 8) (phaseFinal s)
      = readBytes .tag 0 (8 + 8) (mTagOut (mPerm .r12 (mKeyX12 s))) :=
    readBytes_congr (fun _ _ => readStore_congr (phaseFinal_mem s) _ _)
  rw [hdiscard, readBytes_append, readBytes_mTagOut_low hwf, readBytes_mTagOut_high hwf]
  simp only [Reference.tagOf, ← k0_eq, ← k1_eq]
  rfl

theorem phaseFinal_ct (m : Nat) (s : State) : readStore .ct m (phaseFinal s) = readStore .ct m s :=
  microOp_run_memGet (o := .tagOut) (s := mPerm .r12 (mKeyX12 s)) (fun hst => by
    simp only [opStores, Store.base] at hst
    omega)

/-! ### Ciphertext and tag -/

theorem encryptPhases_eq (s : State) : encryptPhases s = phaseFinal (phasePt (s.setS (beforePt s))) := by
  rw [encryptPhases, phaseAd_phaseInit_eq]

/-- From the sponge the plaintext phase begins with, ciphertext and tag are the reference's (R137 to R141). -/
theorem phaseFinal_phasePt {s : State} (hc : commandError .encrypt s = none) (hw : Memory.wf s.mem = true) :
    (readBytes .ct 0 s.ptlen.toNat (phaseFinal (phasePt s)), readBytes .tag 0 16 (phaseFinal (phasePt s)))
      = (let out := Reference.crypt s.params.sbox5
          (Reference.wordsOf (Reference.padded (readBytes .pt 0 s.ptlen.toNat s))) s.S
        (out.1.take s.ptlen.toNat, Reference.tagOf s.params.sbox5 (readBytes .key 0 16 s) out.2)) := by
  obtain ⟨hct, hS⟩ := phasePt_eq_crypt hc hw
  rw [readBytes_congr (fun i _ => phaseFinal_ct (0 + i) (phasePt s)), hct, phaseFinal_tag (phasePt_mem_wf hw),
    phasePt_params, (phasePt_sameOperands hc).key_eq, hS]

/-- Settles O31: the first two phases leave the reference's sponge and the state otherwise as it was, and the last
two its ciphertext and tag. -/
theorem encryptComputesReference : Obligations.EncryptComputesReference := by
  intro s hw hp ha ht
  have hc := commandError_encrypt_of hp ha ht
  have hc' : commandError .encrypt (s.setS (beforePt s)) = none := (commandError_congr rfl rfl rfl).trans hc
  refine ⟨_, exec_encrypt_of_passed hc, ?_⟩
  rw [readBytes_finish, readBytes_finish, encryptPhases_eq, Reference.encrypt, length_readBytes]
  exact phaseFinal_phasePt (s := s.setS (beforePt s)) hc' hw

/-- Settles O32: both runs compute `Encrypt` of the bytes the two states agree on. -/
theorem encryptDependsOnOperandsOnly : Obligations.EncryptDependsOnOperandsOnly := by
  intro s s' t t' hw hw' hin hp ha ht hexec hexec'
  obtain ⟨hiv, hsbox, hal, hpl, hpresent, hkey, hnonce, had, hpt⟩ := hin
  obtain ⟨u, hu, href⟩ := encryptComputesReference s hw hp ha ht
  obtain ⟨u', hu', href'⟩ := encryptComputesReference s' hw' (hpresent.trans hp) (hal ▸ ha) (hpl ▸ ht)
  obtain rfl : u = t := by rw [hexec] at hu; injection hu with h; exact h.symm
  obtain rfl : u' = t' := by rw [hexec'] at hu'; injection hu' with h; exact h.symm
  rw [hiv, hsbox, hal, hpl, firstBytes_congr hkey, firstBytes_congr hnonce, firstBytes_congr had,
    firstBytes_congr hpt, ← href] at href'
  exact Prod.mk.inj href'

/-- Ciphertext byte m is the plaintext byte masked with word 0 as it stands before its block (R139 (d)). -/
theorem exec_encrypt_ct {s t : State} {m : Nat} (hw : Memory.wf s.mem = true)
    (hc : commandError .encrypt s = none) (hm : m < s.ptlen.toNat) (hexec : exec .encrypt s = .next t) :
    readStore .ct m t ^^^ readStore .pt m s
      = byteOf (absorbFirst s.params.sbox5 (ptWord s) (m / 8) (beforePt s)).x0 (m % 8) := by
  have hc' : commandError .encrypt (s.setS (beforePt s)) = none := (commandError_congr rfl rfl rfl).trans hc
  have hct : readStore .ct m t = byteOf (cipherWord s.params.sbox5 (ptWord s) (beforePt s) (m / 8)) (m % 8) := by
    rw [exec_encrypt_of_passed hc, encryptPhases_eq] at hexec
    injection hexec with ht
    rw [← ht, readStore_finish]
    exact (phaseFinal_ct m _).trans (phasePt_ct hc' hw hm)
  have hpt : byteOf (ptWord s (m / 8)) (m % 8) = readStore .pt m s := by
    rw [ptWord, byteOf_blk _ _ _ _ (Nat.mod_lt m (by decide)), Nat.div_add_mod, paddedByte_of_lt hm]
  rw [hct, cipherWord, byteOf_xor, hpt, BitVec.xor_assoc, BitVec.xor_self, BitVec.xor_zero]

/-- Settles O33: the mask is of the sponge before plaintext and of the blocks below the byte's own, which are full
and the same. -/
theorem ciphertextByteIsMaskedPlaintext : Obligations.CiphertextByteIsMaskedPlaintext := by
  intro s s' t t' m hw hw' hp hp' hiv hsbox hal ha hl hl' hkey hnonce had hpt hm hm' hexec hexec'
  have hc := commandError_encrypt_of hp ha hl
  have hc' := commandError_encrypt_of hp' (hal ▸ ha) hl'
  have hbefore : beforePt s' = beforePt s := by
    rw [beforePt, hiv, hsbox, hal, firstBytes_congr hkey, firstBytes_congr hnonce, firstBytes_congr had, beforePt]
  have hblocks : ∀ j, j < m / 8 → ptWord s' j = ptWord s j := fun j hj =>
    blk_congr (fun k hk => by
      rw [paddedByte_of_lt (by omega), paddedByte_of_lt (by omega), hpt _ (by omega)])
  rw [exec_encrypt_ct hw hc hm hexec, exec_encrypt_ct hw' hc' hm' hexec', hsbox, hbefore,
    absorbFirst_congr hblocks]

end Sys2Proof.Machine
end

section
/-! Acceptance and the control of a command, 42_control.md R170 to R176: the step that submits a command, what a start
leaves, that control never depends on data, and that an idle block keeps its report. -/

namespace Sys2Proof.Machine

/-! ### The step that submits a command -/

theorem step_submit_atomic {s : State} {c : Byte} {i : Instr} {rest : List HostAction}
    (hin : s.inputs = .write cmdAddr c :: rest) (hb : s.status.busy = false) (ht : s.params.timing = .atomic)
    (hd : decode c = .command i) : step s = exec i (accept (s.setInputs rest)) := by
  simp only [step_submit hin hb, submit, hd, State.setInputs_params, ht]

theorem step_submit_of_error {s : State} {c : Byte} {i : Instr} {e : ErrCode} {rest : List HostAction}
    (hin : s.inputs = .write cmdAddr c :: rest) (hb : s.status.busy = false) (hd : decode c = .command i)
    (he : commandError i s = some e) : step s = .next (raise e (accept (s.setInputs rest))) :=
  (step_submit hin hb).trans (submit_of_error hd ((commandError_congr rfl rfl rfl).trans he))

/-- Settles O9: the step is the submission of the byte, and with a positive latency the tests of the command say
whether that is a rejection or a start. -/
theorem stepRunsDecodedCommand : Obligations.StepRunsDecodedCommand := by
  refine fun s c i rest hin hb hd => ⟨fun ht => step_submit_atomic hin hb ht hd, fun ht => ?_⟩
  cases hc : commandError i s with
  | some e => exact step_submit_of_error hin hb hd hc
  | none => exact step_submit_timed hin hb ht hd hc

/-- Settles O37: a start writes `STATUS` and the sequencer's fields alone. -/
theorem startedCommandIsBusy : Obligations.StartedCommandIsBusy := fun _ _ =>
  ⟨rfl, statusByte_running, rfl, rfl, rfl, rfl, sameOperands_of_mem rfl rfl rfl rfl, rfl, rfl, rfl⟩

/-! ### Control never depends on data -/

/-- Two states agree on what the sequencer goes by: `MPC`, `POS`, the list, and on `STATUS`. -/
structure SameControl (s t : State) : Prop where
  mpc : t.mpc = s.mpc
  pos : t.pos = s.pos
  microOps : t.microOps = s.microOps
  status : t.status = s.status

theorem SameControl.after_run {s t : State} (h : SameControl s t) (o : MicroOp) :
    SameControl (o.run s) (o.run t) where
  mpc := by simp [h.mpc]
  pos := by simp [h.pos]
  microOps := by simp [h.microOps]
  status := by simp [h.status]

theorem SameControl.after_permRound {s t : State} (h : SameControl s t) (r : Rounds) :
    SameControl (permRound r s) (permRound r t) where
  mpc := h.mpc
  pos := congrArg (· + 1) h.pos
  microOps := h.microOps
  status := h.status

theorem SameControl.after_finish {s t : State} (h : SameControl s t) : SameControl (finish s) (finish t) where
  mpc := rfl
  pos := h.pos
  microOps := rfl
  status := rfl

theorem SameControl.after_goTo {s t : State} (h : SameControl s t) (n : Nat) :
    SameControl (goTo n s) (goTo n t) where
  mpc := rfl
  pos := congrArg₂ (fun l p => posAt l n p) h.microOps h.pos
  microOps := h.microOps
  status := h.status

theorem SameControl.after_leave {s t : State} (h : SameControl s t) (n : Nat) :
    SameControl (leave n s) (leave n t) := by
  rw [leave, leave, h.microOps]
  split
  · exact h.after_goTo (n + 1)
  · exact h.after_finish

/-- Every branch of a turn is taken on `MPC`, `POS` and the list (42_control.md R172). -/
theorem SameControl.after_blockTurn {s t : State} (h : SameControl s t) :
    SameControl (blockTurn s) (blockTurn t) := by
  rw [blockTurn, blockTurn, h.mpc, h.microOps, h.pos]
  split
  · exact h
  · split
    · exact h.after_finish
    · split
      · exact (h.after_permRound _).after_leave _
      · exact h.after_permRound _
    · exact (h.after_run _).after_leave _

/-- Settles O42: the tests and the list read the lengths and `PRESENT` alone, and a turn takes agreeing control to
agreeing control. -/
theorem controlIndependentOfData : Obligations.ControlIndependentOfData := by
  refine ⟨fun i s t hp ha ht => ⟨commandError_congr hp ha ht, opsOf_congr ha ht⟩,
    fun s t hmpc hpos hlist hstatus => ?_⟩
  obtain ⟨hmpc', hpos', hlist', hstatus'⟩ := (SameControl.mk hmpc hpos hlist hstatus).after_blockTurn
  exact ⟨hmpc', hpos', hlist', hstatus'⟩

/-! ### The report of an idle block -/

theorem blockTurn_of_idle {s : State} (hm : s.mpc = .idle) : blockTurn s = s := by
  rw [blockTurn, hm]

theorem pollOnce_of_idle {s : State} (hb : s.status.busy = false) : pollOnce s = recordRead statusAddr s := by
  rw [pollOnce, hb, if_neg Bool.false_ne_true]

/-- Settles O45: of the ways a step goes only a submission and a reset touch `STATUS` or `MPC` of an idle block. -/
theorem reportPersistsUntilNextCommand : Obligations.ReportPersistsUntilNextCommand := by
  intro s t h hb hstep hcmd hreset
  have hm : s.mpc = .idle := (h.resting hb).mpc_idle
  rcases step_cases hstep with ⟨-, rfl⟩ | ⟨rest, -, rfl⟩ | ⟨rest, hin, -⟩ | ⟨rest, -, rfl⟩ |
    ⟨a, rest, -, rfl⟩ | ⟨a, v, rest, -, -, rfl⟩ | ⟨a, v, rest, hin, -, ha, -⟩ | ⟨a, v, rest, -, -, -, rfl⟩
  · rw [blockTurn_of_idle hm]
    exact ⟨rfl, hm⟩
  · rw [blockTurn_of_idle (s := s.setInputs rest) hm]
    exact ⟨rfl, hm⟩
  · exact absurd hin (hreset rest)
  · rw [pollOnce_of_idle (s := s.setInputs rest) hb]
    exact ⟨rfl, hm⟩
  · exact ⟨rfl, hm⟩
  · exact ⟨rfl, hm⟩
  · exact absurd (itemAt_eq_cmd.mp ha ▸ hin) (hcmd v rest)
  · obtain ⟨hstatus, hmpc, -⟩ := writeItem_control (itemAt a) v (s.setInputs rest)
    exact ⟨hstatus, hmpc.trans hm⟩

end Sys2Proof.Machine
end

section
/-! Errors, 60_exceptions.md R201 to R206: when the tests of a command find which error, that an error in the report
comes from those tests or from a byte that is no command, and that raising it changes the report alone. -/

namespace Sys2Proof.Machine

/-! ### The tests of a command -/

/-- The only byte out of range as a length is 255 (60_exceptions.md R202). -/
theorem maxLen_lt_toNat_iff {v : Byte} : Config.maxLen < v.toNat ↔ v = 255#8 := by
  rw [← BitVec.toNat_inj]
  exact ⟨fun h => Nat.le_antisymm (byte_le_255 v) h, fun h => h ▸ Nat.lt_succ_self 254⟩

theorem toNat_le_254_iff {v : Byte} : v.toNat ≤ 254 ↔ v ≠ 255#8 :=
  Nat.not_lt.symm.trans (not_congr maxLen_lt_toNat_iff)

theorem commandError_eq_missingBuffer_iff {i : Instr} {s : State} :
    commandError i s = some .missingBuffer ↔ i = .encrypt ∧ s.present ≠ 0b111111#6 := by
  constructor
  · intro h
    obtain ⟨hi, ⟨-, hp⟩ | ⟨he, -⟩⟩ := commandError_cases h
    · exact ⟨hi, hp⟩
    · cases he
  · rintro ⟨rfl, hp⟩
    rw [commandError, encryptError, if_pos hp]

theorem commandError_eq_lengthOutOfRange_iff {i : Instr} {s : State} :
    commandError i s = some .lengthOutOfRange ↔
      i = .encrypt ∧ s.present = 0b111111#6 ∧ (s.adlen = 255#8 ∨ s.ptlen = 255#8) := by
  rw [← maxLen_lt_toNat_iff, ← maxLen_lt_toNat_iff]
  constructor
  · intro h
    obtain ⟨hi, ⟨he, -⟩ | ⟨-, hp, hl⟩⟩ := commandError_cases h
    · cases he
    · exact ⟨hi, hp, hl⟩
  · rintro ⟨rfl, hp, hl⟩
    rw [commandError, encryptError, if_neg (not_not_intro hp), if_pos hl]

theorem commandError_eq_none_iff {i : Instr} {s : State} : commandError i s = none ↔
    (i = .encrypt → s.present = 0b111111#6 ∧ s.adlen ≠ 255#8 ∧ s.ptlen ≠ 255#8) := by
  rw [← toNat_le_254_iff, ← toNat_le_254_iff]
  constructor
  · rintro h rfl
    exact commandError_encrypt_none h
  · intro h
    cases i with
    | encrypt =>
      obtain ⟨hp, ha, ht⟩ := h rfl
      exact commandError_encrypt_of hp ha ht
    | _ => rfl

/-! ### Where a report of an error comes from -/

/-- A command that ends with an error is one its tests rejected. -/
theorem commandError_of_exec {i : Instr} {s t : State} {e : ErrCode} (h : exec i s = .next t)
    (he : t.status.err = e) (hne : e ≠ .none) : commandError i s = some e := by
  rcases exec_cases h with ⟨e', hc, rfl⟩ | ⟨-, rfl⟩
  · exact hc.trans (congrArg some he)
  · exact absurd he.symm hne

/-- A submission that ends with an error raised it after acceptance, on a byte that is no command or on a command its
tests rejected. -/
theorem raised_of_step_submit {s t : State} {c : Byte} {rest : List HostAction} {e : ErrCode}
    (hin : s.inputs = .write cmdAddr c :: rest) (hb : s.status.busy = false) (hstep : step s = .next t)
    (he : t.status.err = e) (hne : e ≠ .none) :
    t = raise e (accept (s.setInputs rest)) ∧
      (e = .illegalCommand ∨ ∃ i, c = encode i ∧ commandError i s = some e) := by
  rcases submit_cases ((step_submit hin hb).symm.trans hstep) with
    ⟨w, -, rfl⟩ | ⟨i, e', hd, hc, rfl⟩ | ⟨i, -, -, -, rfl⟩ | ⟨i, -, -, -, rfl⟩
  · obtain rfl : ErrCode.illegalCommand = e := he
    exact ⟨rfl, .inl rfl⟩
  · obtain rfl : e' = e := he
    exact ⟨rfl, .inr ⟨i, decode_eq_command_iff.mp hd, (commandError_congr rfl rfl rfl).symm.trans hc⟩⟩
  · exact absurd he.symm hne
  · exact absurd he.symm hne

theorem commandError_of_step_submit {s t : State} {c : Byte} {rest : List HostAction} {e : ErrCode}
    (hin : s.inputs = .write cmdAddr c :: rest) (hb : s.status.busy = false) (hstep : step s = .next t)
    (he : t.status.err = e) (hne : e ≠ .none) (hcmd : e ≠ .illegalCommand) :
    ∃ i, c = encode i ∧ commandError i s = some e :=
  (raised_of_step_submit hin hb hstep he hne).2.resolve_left hcmd

/-! ### What a report of an error leaves -/

/-- An error raised by the submission to an idle block. -/
theorem raise_accept_of_idle {s : State} (hb : s.status.busy = false) (e : ErrCode) (rest : List HostAction) :
    raise e (accept (s.setInputs rest))
      = { s with inputs := rest, status := { busy := false, done := true, err := e } } := by
  rw [← hb]
  rfl

theorem step_submit_encrypt_of_error {s : State} {e : ErrCode} {rest : List HostAction}
    (hin : s.inputs = .write cmdAddr 0x20#8 :: rest) (hb : s.status.busy = false)
    (he : commandError .encrypt s = some e) :
    step s = .next { s with inputs := rest, status := { busy := false, done := true, err := e } } :=
  raise_accept_of_idle hb e rest ▸ step_submit_of_error hin hb (decode_encode .encrypt) he

/-- Settles O27: the report comes from the test of `PRESENT`, which only `ENCRYPT` makes, and raising it writes
`STATUS` alone. -/
theorem missingBufferExactly : Obligations.MissingBufferExactly := by
  refine ⟨fun s hp => ?_, fun i s t h he => ?_, fun i s => commandError_eq_missingBuffer_iff,
    fun s rest hin hb hp => ?_, fun s t c rest hin hb hstep he => ?_⟩
  · exact exec_of_error (commandError_eq_missingBuffer_iff.mpr ⟨rfl, hp⟩)
  · exact commandError_eq_missingBuffer_iff.mp (commandError_of_exec h he (by decide))
  · exact step_submit_encrypt_of_error hin hb (commandError_eq_missingBuffer_iff.mpr ⟨rfl, hp⟩)
  · obtain ⟨i, rfl, hc⟩ := commandError_of_step_submit hin hb hstep he (by decide) (by decide)
    obtain ⟨rfl, hp⟩ := commandError_eq_missingBuffer_iff.mp hc
    exact ⟨rfl, hp⟩

/-- Settles O28: the report comes from the test of the lengths, which `ENCRYPT` makes once `PRESENT` is all ones, and
raising it writes `STATUS` alone. -/
theorem lengthOutOfRangeExactly : Obligations.LengthOutOfRangeExactly := by
  refine ⟨fun s hp hl => ?_, fun i s t h he => ?_, fun i s => commandError_eq_lengthOutOfRange_iff,
    fun i s => commandError_eq_none_iff, fun s rest hin hb hp hl => ?_, fun s t c rest hin hb hstep he => ?_⟩
  · exact exec_of_error (commandError_eq_lengthOutOfRange_iff.mpr ⟨rfl, hp, hl⟩)
  · exact commandError_eq_lengthOutOfRange_iff.mp (commandError_of_exec h he (by decide))
  · exact step_submit_encrypt_of_error hin hb (commandError_eq_lengthOutOfRange_iff.mpr ⟨rfl, hp, hl⟩)
  · obtain ⟨i, rfl, hc⟩ := commandError_of_step_submit hin hb hstep he (by decide) (by decide)
    obtain ⟨rfl, hp, hl⟩ := commandError_eq_lengthOutOfRange_iff.mp hc
    exact ⟨rfl, hp, hl⟩

/-- Settles O29: a submission that ends with an error raised it on the accepted block, and neither acceptance nor the
report writes anything but `STATUS`. -/
theorem errorChangesOnlyTheReport : Obligations.ErrorChangesOnlyTheReport := by
  intro s t c rest hin hb hstep hne
  obtain ⟨ht, -⟩ := raised_of_step_submit hin hb hstep rfl hne
  rw [raise_accept_of_idle hb] at ht
  rw [ht]
  exact ⟨rfl, rfl, rfl⟩

end Sys2Proof.Machine
end

section
/-! The reset event as a step, 70_reset_and_hazards.md R230: whatever the block was doing, what is left is idle. -/

namespace Sys2Proof.Machine

theorem step_reset {s : State} {rest : List HostAction} (hin : s.inputs = .reset :: rest) :
    step s = .next (resetEvent (s.setInputs rest)) := by
  rw [step, hin]
  rfl

/-- What a reset event leaves lists no byte in its memory, so every address reads as R29's 0x00. -/
theorem memGet_resetEvent (s : State) (a : Nat) : memGet (resetEvent s).mem a = 0x00#8 := rfl

theorem step_resetEvent_of_no_inputs (s : State) :
    step { resetEvent s with inputs := [] } = .next { resetEvent s with inputs := [] } :=
  step_of_idle_waiting rfl (resetEvent_resting s).mpc_idle

/-- Settles O2: the step is the reset event, which reads of the state before it only the parameters and the host's
side, so a running command leaves no trace; and the block it leaves is idle, so it waits for its host. -/
theorem resetEventFromAnyState : Obligations.ResetEventFromAnyState := by
  intro s rest hin
  obtain ⟨-, hbusy, -, hmpc, hlist⟩ := resetEvent_resting (s.setInputs rest)
  exact ⟨resetEvent (s.setInputs rest), step_reset hin, rfl, memGet_resetEvent _, rfl, rfl, rfl,
    hbusy, rfl, rfl, hmpc, hlist, resetEvent_params _, rfl, rfl, step_resetEvent_of_no_inputs _⟩

end Sys2Proof.Machine
end

section
/-! `POS` over a command's one event: the model's choice where 10_state.md R24 calls it meaningless. -/

namespace Sys2Proof.Machine

/-- Settles O50, by the two ways a command ends: an error report writes `STATUS` alone, and the end of a passed command
keeps the `POS` its micro-operations left, none of which writes it. -/
theorem posIsKeptWhereItIsMeaningless : Obligations.PosIsKeptWhereItIsMeaningless := by
  intro i s t h
  obtain ⟨e, -, rfl⟩ | ⟨-, rfl⟩ := exec_cases h
  · exact raise_pos e s
  · calc (finish (runOps (opsOf i s) s)).pos
      _ = (runOps (opsOf i s) s).pos := finish_pos _
      _ = s.pos := runOps_pos _ s

end Sys2Proof.Machine
end
